-- ==== Sys2Proof/Word.lean ====
section
/-!
DEFINITION. The widths of the spec as names (`00_scope.md` R6, R10): every value is an unsigned bit vector.
-/

namespace Sys2Proof

/-- A byte of the host's memory. -/
abbrev Byte := BitVec 8

/-- One bus word: the host bus is 32 bits wide (`00_scope.md` R7). -/
abbrev Word := BitVec 32

/-- A 64-bit block or key (R6). -/
abbrev Block := BitVec 64

/-- A 32-bit half-block, Left or Right (R6). -/
abbrev Half := BitVec 32

/-- A 28-bit key-schedule half, C or D (R6). -/
abbrev KeyHalf := BitVec 28

/-- A 48-bit round key (R6). -/
abbrev RoundKey := BitVec 48

end Sys2Proof
end

