-- ==== Sys2Proof/Config.lean ====
section
/-!
DEFINITION. What the spec leaves open: who moves next, and the padding bytes a caller's buffer does not hold.
Both are constants with no body, so nothing can be proved about the values they give.
-/

namespace Sys2Proof

/-- Who makes the next move (`00_scope.md` R8): the host, the engine of instance `k`, or a reset of instance `k`. -/
inductive Agent where
  | host
  | engine (k : Nat)
  | reset (k : Nat)
  deriving DecidableEq, Repr, Inhabited

/-- Who moves when the state's list of turns is empty, by the number of such draws so far.
`20_memory.md` R60 leaves the interleaving free; a free value (log 1). -/
opaque Config.freeTurn : Nat → Agent

/-- `PadDraw(j)` of `45_host_transform.md` R226, by the number of the call and the byte offset `j`:
a free draw with no law (log 8). -/
opaque Config.padDraw : Nat → Nat → Byte

end Sys2Proof
end

