-- ==== Sys2Proof/Syntax.lean ====
section
/-!
DEFINITION. The syntax: the engine's commands (one constructor per row of spec/opcode_table.json), the host's bus
accesses, the host's program statements and the arguments of the host procedure.
-/

namespace Sys2Proof

/-- The five commands of `30_encoding.md` R84. None has an operand (R83). -/
inductive Instr where
  | nop
  | ksched
  | enc
  | dec
  | clr
  deriving DecidableEq, Repr, Inhabited

/-- What a CTRL word decodes to (`30_encoding.md` R82): one of the five commands, or reserved. -/
inductive Decoded where
  | cmd (i : Instr)
  | reserved (w : Word)
  deriving DecidableEq, Repr

/-- The direction of a block operation: exactly two values (`00_scope.md` R6, `45_host_transform.md` R220). -/
inductive Dir where
  | enc
  | dec
  deriving DecidableEq, Repr, Inhabited

/-- The named registers of the window (`20_memory.md` R51). -/
inductive Reg where
  | ctrl | status | keyHi | keyLo | dinHi | dinLo | doutHi | doutLo | id
  deriving DecidableEq, Repr

/-- One host bus transaction (`30_encoding.md` R87), with the width in bits the host asks for
(`20_memory.md` R52). `addr` is a host bus address; an offset is the address minus the window's base (R50). -/
inductive Access where
  | read (addr width : Nat)
  | write (addr width : Nat) (data : Word)
  deriving DecidableEq, Repr

/-- The arguments of the host procedure (`45_host_transform.md` R220): the output buffer and its capacity, the
direction, the 8 key bytes, the input buffer, the message length, how many bytes the caller's input buffer holds
(R226, log 9), and the window bases of the instances that share the call (R231, R232). -/
structure Call where
  out    : Nat
  cap    : Nat
  dir    : Dir
  key    : Vector Byte 8
  inp    : Nat
  length : Nat
  inCap  : Nat
  unit   : Nat
  more   : List Nat
  deriving DecidableEq, Repr

/-- The instances a call uses, never none. -/
def Call.units (c : Call) : List Nat := c.unit :: c.more

/-- A statement of a host program. `bus`, `poll` and `check` are `30_encoding.md` R87 to R90; `transform` is the call
of `45_host_transform.md` R231, and the others are the parts it runs as. -/
inductive HostStmt where
  /-- One bus transaction: `WR` and `RD`, and the accesses the engine refuses. -/
  | bus (a : Access)
  /-- `POLL`: read `addr` until `word & mask = value`. -/
  | poll (addr : Nat) (mask value : Word)
  /-- `CHECK` on the instance whose window starts at `base`. -/
  | check (base : Nat)
  /-- `TransformOnEngine`. -/
  | transform (c : Call)
  /-- `LDDIN Pack64(InBytes(in, length, i))` on the window at `base`, for call number `p`. -/
  | feedBlock (base : Nat) (c : Call) (p i : Nat)
  /-- First half of `RDOUT` of the block that goes to memory address `a`. -/
  | readOutHi (base a : Nat)
  /-- Second half of `RDOUT`, with the first half's value. -/
  | readOutLo (base a : Nat) (hi : Word)
  /-- `MemWrite(a, 8, Unpack64(v))`. -/
  | storeBlock (a : Nat) (v : Block)
  /-- `return n` of the host procedure. -/
  | ret (n : Nat)
  deriving DecidableEq, Repr

/-- The pseudo-instructions of `30_encoding.md` R89; the five commands are `command`. -/
inductive Pseudo where
  | command (i : Instr)
  | wait
  | ldkey (k : Block)
  | lddin (b : Block)
  | rdout
  | check
  deriving DecidableEq, Repr

end Sys2Proof
end

