-- ==== Sys2Proof/WellFormed.lean ====
section
/-!
DEFINITION. Which terms of the syntax are well formed. Every check is a Bool.
-/

namespace Sys2Proof

/-- A command has no operand that could be out of range (`30_encoding.md` R83): each of the five is well formed. -/
def Instr.wf : Instr → Bool
  | .nop => true
  | .ksched => true
  | .enc => true
  | .dec => true
  | .clr => true

/-- A CTRL word that is one of the five commands (`30_encoding.md` R81, R85): RSVD is 0 and CMD is at most 4. -/
def ctrlWordWf (w : Word) : Bool :=
  w.extractLsb' 4 28 == 0#28 && (w.extractLsb' 0 4).toNat ≤ 4

/-- A permitted access (`20_memory.md` R52), for a window whose base is a multiple of 64 (R50): then the offset is a
multiple of 4 exactly when the address is. -/
def Access.wf : Access → Bool
  | .read a w => w == 32 && a % 4 == 0
  | .write a w _ => w == 32 && a % 4 == 0

/-- A window base (`20_memory.md` R50): a multiple of 64. -/
def baseWf (b : Nat) : Bool := b % 64 == 0

/-- A call whose instances are distinct windows (`45_host_transform.md` R232) at proper bases. -/
def Call.wf (c : Call) : Bool :=
  c.units.all baseWf && decide c.units.Nodup

/-- A statement whose accesses are permitted, and whose instances are at proper bases. -/
def HostStmt.wf : HostStmt → Bool
  | .bus a => a.wf
  | .poll a _ _ => a % 4 == 0
  | .check b => baseWf b
  | .transform c => c.wf
  | .feedBlock b c _ i => baseWf b && c.wf && i % 8 == 0
  | .readOutHi b _ => baseWf b
  | .readOutLo b _ _ => baseWf b
  | .storeBlock _ _ => true
  | .ret _ => true

end Sys2Proof
end

