-- ==== Sys2Proof/Decode.lean ====
section
/-!
DEFINITION. Decoding of CTRL words, total over all 2^32 of them (`30_encoding.md` R82), the encoder written from the
same table (R84), the disassembler (R91), and the host's entry `decodeTableWord`.
-/

namespace Sys2Proof

/-- Decode a CTRL word (`30_encoding.md` R82): all 32 bits are compared (R84), so a set RSVD bit makes the word
reserved whatever CMD is (R81). -/
def decode (w : Word) : Decoded :=
  if w = 0x00000000#32 then .cmd .nop
  else if w = 0x00000001#32 then .cmd .ksched
  else if w = 0x00000002#32 then .cmd .enc
  else if w = 0x00000003#32 then .cmd .dec
  else if w = 0x00000004#32 then .cmd .clr
  else .reserved w

/-- The CMD code of a command (`30_encoding.md` R81). -/
def cmdCode : Instr → BitVec 4
  | .nop => 0x0#4
  | .ksched => 0x1#4
  | .enc => 0x2#4
  | .dec => 0x3#4
  | .clr => 0x4#4

/-- The CTRL word of a command: RSVD[31:4] = 0, CMD[3:0] its code (`30_encoding.md` R81). -/
def encode (i : Instr) : Word := (0#28 ++ cmdCode i : BitVec 32)

/-- The instruction the decoder reads from an instruction of `nbits` bits whose bits are `w`, bit 0 the least
significant of the one word. A CTRL word is one 32-bit bus word, so no byte order enters (`20_memory.md` R56). -/
def decodeTableWord (nbits w : Nat) : Option Instr :=
  match decode (BitVec.ofNat 32 (w % 2 ^ nbits)) with
  | .cmd i => some i
  | .reserved _ => none

/-- The mnemonic of a command (`30_encoding.md` R84). -/
def mnemonic : Instr → String
  | .nop => "NOP"
  | .ksched => "KSCHED"
  | .enc => "ENC"
  | .dec => "DEC"
  | .clr => "CLR"

/-- One upper-case hexadecimal digit. -/
def hexDigit (d : BitVec 4) : Char :=
  if d.toNat < 10 then Char.ofNat (48 + d.toNat) else Char.ofNat (55 + d.toNat)

/-- The eight hexadecimal digits of a word, the most significant first. -/
def hexWord (w : Word) : String :=
  String.ofList ([28, 24, 20, 16, 12, 8, 4, 0].map fun k => hexDigit (w.extractLsb' k 4))

/-- How a disassembler spells a CTRL word (`30_encoding.md` R91). -/
def disassemble (w : Word) : String :=
  match decode w with
  | .cmd i => mnemonic i
  | .reserved v => "RSVD 0x" ++ hexWord v

end Sys2Proof
end

