-- ==== Sys2Proof/Machine/State.lean ====
section
/-!
DEFINITION. The state: the registers of each engine instance (`10_state.md` R20), the instances and their windows, and
the host (its program, its memory, what it has read). All plain data.
-/

namespace Sys2Proof.Machine

/-- PHASE (`10_state.md` R28). The value 3 is written by no rule and is not representable
(`93_implementation_defined.md` U9, log 13). -/
inductive Phase where
  | idle
  | ksched
  | block
  deriving DecidableEq, Repr, Inhabited

/-- The complete state of one engine instance (`10_state.md` R20). BUSY and STATUS are functions of it (R30, R34),
CTRL stores nothing (R35), ID is a constant (R36). -/
structure Engine where
  /-- KEY, R21. -/
  key : Block
  /-- DIN, R22. -/
  din : Block
  /-- DOUT, R23. -/
  dout : Block
  /-- C, R24. -/
  c : KeyHalf
  /-- D, R24. -/
  d : KeyHalf
  /-- RK[0..15], R25. -/
  rk : Vector RoundKey 16
  /-- L, R26. -/
  l : Half
  /-- R, R26. -/
  r : Half
  /-- DIRN, R27. -/
  dirn : Dir
  /-- PHASE, R28. -/
  phase : Phase
  /-- CNT, R29. -/
  cnt : BitVec 4
  /-- KEY_VALID, R31. -/
  keyValid : Bool
  /-- DONE, R32. -/
  done : Bool
  /-- ERR_CMD, R33. -/
  errCmd : Bool
  /-- ERR_BUSY, R33. -/
  errBusy : Bool
  /-- ERR_NOKEY, R33. -/
  errNokey : Bool
  deriving DecidableEq, Repr

/-- An engine right after reset: every element at its reset value (`70_reset_and_hazards.md` R270). -/
def Engine.reset : Engine where
  key := 0x0000000000000000#64
  din := 0x0000000000000000#64
  dout := 0x0000000000000000#64
  c := 0x0000000#28
  d := 0x0000000#28
  rk := Vector.replicate 16 0x000000000000#48
  l := 0x00000000#32
  r := 0x00000000#32
  dirn := .enc
  phase := .idle
  cnt := 0x0#4
  keyValid := false
  done := false
  errCmd := false
  errBusy := false
  errNokey := false

/-- One engine instance on the host's bus: its window starts at `base`, which is `DES_BASE` (`20_memory.md` R50). -/
structure Slot where
  base : Nat
  eng  : Engine
  deriving DecidableEq, Repr

/-- The host's memory: (address, byte) pairs. An address that is not listed holds no byte the model knows (log 7). -/
abbrev Memory := List Host.Cell

/-- The canonical form: addresses strictly rising. No entry can equal what an unlisted address reads as, since that is
no value. -/
abbrev Memory.wf (m : Memory) : Prop := m.Pairwise (fun x y => x.1 < y.1)

/-- What the host procedure returns (`45_host_transform.md` R220). -/
inductive ProcResult where
  | returned (n : Nat)
  | capacityError (needed cap : Nat)
  deriving DecidableEq, Repr

/-- Why a step ends in a fault. -/
inductive Fault where
  /-- A host access of another width than 32 bits, or at an offset that is not a multiple of 4 (`20_memory.md` R52).
  Raised by every bus access. Safe: the spec says to treat it as a fault (`60_exceptions.md` R255, log 6). -/
  | busError (off : Nat)
  /-- A host access at an address in no instance's window (`20_memory.md` R50). Raised by every bus access.
  Safe: no engine is there to act (log 5). -/
  | noWindow (addr : Nat)
  deriving DecidableEq, Repr

/-- Why a step is refused. -/
inductive Refusal where
  /-- An instruction without a meaning, by its mnemonic. Raised by no arm of this model. Safe. -/
  | notModelled (mnemonic : String)
  /-- A call of the host procedure whose buffers overlap partially (`45_host_transform.md` R229). Raised by the
  statement `transform`. Safe: the spec says to refuse it (`60_exceptions.md` R255, log 17). -/
  | partialOverlap
  deriving DecidableEq, Repr

/-- The whole machine: the instances on the bus, and the host. -/
structure State where
  /-- The `N_ENGINES` instances (`10_state.md` R41), each with its window. -/
  engines : List Slot
  /-- The instance whose window the host last wrote, on which a command acts: the model's own field (log 4). -/
  sel : Nat
  /-- The statements of the host's program still to run (`30_encoding.md` R88). -/
  prog : List HostStmt
  /-- The values the host has read, the newest first (`30_encoding.md` R88). -/
  reads : List Word
  /-- The host's memory (`45_host_transform.md` R220). -/
  mem : Memory
  /-- The result of the last finished host procedure (`45_host_transform.md` R220). -/
  result : Option ProcResult
  /-- Whether a `CHECK` has failed (`30_encoding.md` R89). -/
  failed : Bool
  /-- Who moves next, in order: the model's own field, an input of the run (log 1). -/
  turns : List Agent
  /-- How many turns `Config.freeTurn` has given: the model's own field (log 1). -/
  turnDraws : Nat
  /-- How many calls have drawn padding from `Config.padDraw`: the model's own field (log 8). -/
  padDraws : Nat
  deriving DecidableEq, Repr

/-- The machine right after reset: one instance, at base 0 (log 3), in its reset state (R270), and a host with nothing
to run (log 15). -/
def State.reset : State where
  engines := [{ base := 0, eng := Engine.reset }]
  sel := 0
  prog := []
  reads := []
  mem := []
  result := none
  failed := false
  turns := []
  turnDraws := 0
  padDraws := 0

end Sys2Proof.Machine
end

