-- ==== Sys2Proof/Machine/Datapath.lean ====
section
/-!
DEFINITION. The cipher as pure functions: the bit primitives (`40_tables.md` R100 to R102, R111, R120), the round
function and the round (`42_feistel_round.md` R160, R162), the key schedule (`41_key_schedule.md` R140) and the
16-round network (`43_block_network.md` R180 to R183).
-/

namespace Sys2Proof.Machine

/-- `Permute(T, n, v)` (`40_tables.md` R100): output position `j` is input position `T[j]`, positions counted from 1 at
the most significant bit. -/
def permute {n : Nat} (m : Nat) (table : List Nat) (v : BitVec n) : BitVec m :=
  BitVec.ofNat m (table.foldl (fun acc p => 2 * acc + (v.getLsbD (n - p)).toNat) 0)

/-- The high half of a 64-bit value (`40_tables.md` R101). -/
def hiHalf (x : Block) : Half := x.extractLsb' 32 32

/-- The low half of a 64-bit value (`40_tables.md` R101). -/
def loHalf (x : Block) : Half := x.extractLsb' 0 32

/-- Join of two halves, the first in the high bits (`40_tables.md` R101). -/
def joinHalves (hi lo : Half) : Block := hi ++ lo

/-- `CD = C ++ D`, 56 bits with no gap (`40_tables.md` R101, `90_conflicts.md` C4). -/
def joinCD (c d : KeyHalf) : BitVec 56 := c ++ d

/-- Byte `g` of a 32-bit value, byte 0 the most significant (`40_tables.md` R101); no engine rule uses it. -/
def byteOfWord (x : Word) (g : Nat) : Byte := x.extractLsb' (24 - 8 * g) 8

/-- Group `g` of a 48-bit value, group 0 the most significant six bits (`40_tables.md` R101). -/
def sixBits (x : RoundKey) (g : Nat) : BitVec 6 := x.extractLsb' (42 - 6 * g) 6

/-- Rotation inside the 28-bit field (`40_tables.md` R102). -/
def rotl28 (x : KeyHalf) (s : Nat) : KeyHalf := (x <<< s) ||| (x >>> (28 - s))

/-- S-box lookup (`40_tables.md` R111): bits 5 and 0 select the row, bits 4 to 1 the column. -/
def sboxLookup (rows : List (List Nat)) (g : BitVec 6) : BitVec 4 :=
  let row := (g.extractLsb' 5 1 ++ g.extractLsb' 0 1).toNat
  let col := (g.extractLsb' 1 4).toNat
  BitVec.ofNat 4 ((rows.getD row []).getD col 0)

/-- The substitution stage S (`40_tables.md` R120). -/
def substitute (x : RoundKey) : Half :=
  sboxLookup sbox1 (sixBits x 0) ++ sboxLookup sbox2 (sixBits x 1) ++
  sboxLookup sbox3 (sixBits x 2) ++ sboxLookup sbox4 (sixBits x 3) ++
  sboxLookup sbox5 (sixBits x 4) ++ sboxLookup sbox6 (sixBits x 5) ++
  sboxLookup sbox7 (sixBits x 6) ++ sboxLookup sbox8 (sixBits x 7)

/-- The round function F (`42_feistel_round.md` R160). -/
def feistelF (r : Half) (k : RoundKey) : Half :=
  permute 32 roundPerm (substitute (permute 48 expansion r ^^^ k))

/-- One Feistel round (`42_feistel_round.md` R162). -/
def feistelRound (lr : Half × Half) (k : RoundKey) : Half × Half :=
  (lr.2, lr.1 ^^^ feistelF lr.2 k)

/-- The halves C and D of a key before the first rotation (`41_key_schedule.md` R140). -/
def keyHalves (key : Block) : KeyHalf × KeyHalf :=
  (permute 28 pc1C key, permute 28 pc1D key)

/-- The rotation of round `i` on both halves (`41_key_schedule.md` R140). -/
def rotateHalves (i : Nat) (cd : KeyHalf × KeyHalf) : KeyHalf × KeyHalf :=
  (rotl28 cd.1 (shiftAmount i), rotl28 cd.2 (shiftAmount i))

/-- The halves after the first `n` rounds, each round's from the round before (`41_key_schedule.md` R141). -/
def halvesAfter (cd : KeyHalf × KeyHalf) : Nat → KeyHalf × KeyHalf
  | 0 => cd
  | n + 1 => rotateHalves n (halvesAfter cd n)

/-- PC-2 on the joined halves (`40_tables.md` R109, `41_key_schedule.md` R140). -/
def contract (cd : KeyHalf × KeyHalf) : RoundKey :=
  permute 48 pc2 (joinCD cd.1 cd.2)

/-- Round key `i` of a key: from the halves after the rotation of round `i` (`41_key_schedule.md` R140). -/
def roundKey (key : Block) (i : Nat) : RoundKey :=
  contract (halvesAfter (keyHalves key) (i + 1))

/-- KeySchedule (`41_key_schedule.md` R140). -/
def keySchedule (key : Block) : Vector RoundKey 16 :=
  Vector.ofFn fun i => roundKey key i.val

/-- Entry `i` of a round-key set, for `i` below 16. -/
def rkEntry (rk : Vector RoundKey 16) (i : Nat) : RoundKey :=
  if h : i < 16 then rk[i] else 0#48

/-- KeyFor (`43_block_network.md` R181): 0 to 15 to encrypt, 15 to 0 to decrypt. -/
def keyFor (rk : Vector RoundKey 16) (dir : Dir) (r : Nat) : RoundKey :=
  match dir with
  | .enc => rkEntry rk r
  | .dec => rkEntry rk (15 - r)

/-- The two halves of IP of a block, Left the high one (`43_block_network.md` R180). -/
def blockHalves (b : Block) : Half × Half :=
  (hiHalf (permute 64 ip b), loHalf (permute 64 ip b))

/-- The halves after the first `n` rounds (`43_block_network.md` R180). -/
def roundsFrom (rk : Vector RoundKey 16) (dir : Dir) (lr : Half × Half) : Nat → Half × Half
  | 0 => lr
  | n + 1 => feistelRound (roundsFrom rk dir lr n) (keyFor rk dir n)

/-- The final swap and FP (`43_block_network.md` R182, R104). -/
def blockOutput (lr : Half × Half) : Block :=
  permute 64 fp (joinHalves lr.2 lr.1)

/-- Network (`43_block_network.md` R180). -/
def network (rk : Vector RoundKey 16) (dir : Dir) (b : Block) : Block :=
  blockOutput (roundsFrom rk dir (blockHalves b) 16)

/-- DES (`43_block_network.md` R183). -/
def des (key : Block) (dir : Dir) (b : Block) : Block :=
  network (keySchedule key) dir b

end Sys2Proof.Machine
end

