-- ==== Sys2Proof/Machine/Flags.lean ====
section
/-!
DEFINITION. BUSY, the STATUS word and the error flags (`10_state.md` R30 to R34). The engine has no arithmetic flags
(R38).
-/

namespace Sys2Proof.Machine

/-- The encoding of PHASE (`10_state.md` R28). -/
def phaseBits : Phase → BitVec 2
  | .idle => 0b00#2
  | .ksched => 0b01#2
  | .block => 0b10#2

/-- The encoding of DIRN (`10_state.md` R27). -/
def dirBit : Dir → BitVec 1
  | .enc => 0b0#1
  | .dec => 0b1#1

/-- BUSY (`10_state.md` R30). -/
def Engine.busy (e : Engine) : Bool := e.phase != .idle

/-- The STATUS word (`10_state.md` R34). -/
def statusWord (e : Engine) : Word :=
  (BitVec.ofBool e.errNokey ++ BitVec.ofBool e.errBusy ++ BitVec.ofBool e.errCmd ++ 0b0000#4 ++ e.cnt ++ 0b00#2
    ++ phaseBits e.phase ++ dirBit e.dirn ++ BitVec.ofBool e.done ++ BitVec.ofBool e.keyValid
    ++ BitVec.ofBool e.busy).setWidth 32

/-- The three causes of `60_exceptions.md` R240 that the engine records. -/
inductive ErrCause where
  | cmd
  | busy
  | nokey
  deriving DecidableEq, Repr

/-- Report an error: the one flag of its cause is set, and nothing else changes (`44_control_commands.md` R200,
`60_exceptions.md` R240, R244). The engine has no trap (R247), so this is all an error does. -/
def Engine.raise (cause : ErrCause) (e : Engine) : Engine :=
  match cause with
  | .cmd => { e with errCmd := true }
  | .busy => { e with errBusy := true }
  | .nokey => { e with errNokey := true }

/-- Acknowledge errors (`44_control_commands.md` R202, `60_exceptions.md` R248): the three flags and DONE are cleared. -/
def Engine.acknowledge (e : Engine) : Engine :=
  { e with done := false, errCmd := false, errBusy := false, errNokey := false }

end Sys2Proof.Machine
end

