-- ==== Sys2Proof/Machine/Operands.lean ====
section
/-!
DEFINITION. Register operands: the two words of a 64-bit register (`20_memory.md` R55), the register map (R51, R53,
R54), and the packing of bytes (`45_host_transform.md` R227).
-/

namespace Sys2Proof.Machine

/-- Write the word at the lower offset, bits 63:32 (`20_memory.md` R55). -/
def setHi (x : Block) (v : Word) : Block := v ++ loHalf x

/-- Write the word at the higher offset, bits 31:0 (`20_memory.md` R55). -/
def setLo (x : Block) (v : Word) : Block := hiHalf x ++ v

/-- The identification constant (`10_state.md` R36). -/
def idWord : Word := 0x44455301#32

/-- The offset of a named register (`20_memory.md` R51). -/
def regOffset : Reg → Nat
  | .ctrl => 0x00
  | .status => 0x04
  | .keyHi => 0x08
  | .keyLo => 0x0C
  | .dinHi => 0x10
  | .dinLo => 0x14
  | .doutHi => 0x18
  | .doutLo => 0x1C
  | .id => 0x20

/-- The host bus address of a register of the window at `base` (`20_memory.md` R50). -/
def regAddr (base : Nat) (r : Reg) : Nat := base + regOffset r

/-- ReadReg (`20_memory.md` R54): write-only registers and reserved offsets read 0. -/
def readReg (off : Nat) (e : Engine) : Word :=
  if off = 0x04 then statusWord e
  else if off = 0x10 then hiHalf e.din
  else if off = 0x14 then loHalf e.din
  else if off = 0x18 then hiHalf e.dout
  else if off = 0x1C then loHalf e.dout
  else if off = 0x20 then idWord
  else 0x00000000#32

/-- WriteReg for every offset but CTRL (`20_memory.md` R54): a write to a read-only register or a reserved offset is
ignored. -/
def writeReg (off : Nat) (v : Word) (e : Engine) : Engine :=
  if off = 0x08 then { e with key := setHi e.key v }
  else if off = 0x0C then { e with key := setLo e.key v }
  else if off = 0x10 then { e with din := setHi e.din v }
  else if off = 0x14 then { e with din := setLo e.din v }
  else e

/-- Pack64 (`45_host_transform.md` R227): byte 0 is the most significant. -/
def pack64 (b : Vector Byte 8) : Block :=
  b[0] ++ b[1] ++ b[2] ++ b[3] ++ b[4] ++ b[5] ++ b[6] ++ b[7]

/-- Unpack64 (`45_host_transform.md` R227). -/
def unpack64 (x : Block) : Vector Byte 8 :=
  #v[x.extractLsb' 56 8, x.extractLsb' 48 8, x.extractLsb' 40 8, x.extractLsb' 32 8,
     x.extractLsb' 24 8, x.extractLsb' 16 8, x.extractLsb' 8 8, x.extractLsb' 0 8]

end Sys2Proof.Machine
end

