-- ==== Sys2Proof/Machine/Ops.lean ====
section
/-!
DEFINITION. The named operations over the instances, the host's memory and the host's registers, and the gate every
command passes (`44_control_commands.md` R200).
-/

namespace Sys2Proof.Machine

/-- The engine of instance `k`, if there is one. -/
def State.engineAt (s : State) (k : Nat) : Option Engine := (s.engines[k]?).map Slot.eng

/-- Change the engine of instance `k`, and nothing else (`10_state.md` R41). -/
def State.updAt (s : State) (k : Nat) (f : Engine → Engine) : State :=
  { s with engines := s.engines.modify k fun x => { x with eng := f x.eng } }

/-- Change the engine of the instance being written. -/
def State.updSel (s : State) (f : Engine → Engine) : State := s.updAt s.sel f

/-- The size of a register window in bytes (`20_memory.md` R50). -/
def windowSize : Nat := 64

/-- The instance whose window holds a bus address, and the offset there (`20_memory.md` R50). -/
def findWindow : List Slot → Nat → Option (Nat × Nat)
  | [], _ => none
  | x :: xs, a =>
    if x.base ≤ a ∧ a < x.base + windowSize then some (0, a - x.base)
    else (findWindow xs a).map fun p => (p.1 + 1, p.2)

/-- Which register a host access reaches (`20_memory.md` R50, R52): the instance and the offset, or the fault. -/
def State.resolve (s : State) (addr width : Nat) : Except Fault (Nat × Nat) :=
  match findWindow s.engines addr with
  | none => .error (.noWindow addr)
  | some (k, off) =>
    if width ≠ 32 ∨ off % 4 ≠ 0 then .error (.busError off) else .ok (k, off)

/-- The bus address of CTRL of the instance being written. -/
def State.ctrlAddr (s : State) : Nat :=
  match s.engines[s.sel]? with
  | some x => regAddr x.base .ctrl
  | none => 0

/-- The checks every command but NOP passes before it is accepted (`44_control_commands.md` R200 checks 3 and 4, in
this order): a command that fails one sets its flag and does nothing else. -/
def commandGate (needsKey : Bool) (accept : Engine → Engine) (e : Engine) : Engine :=
  if e.busy then e.raise .busy
  else if needsKey && !e.keyValid then e.raise .nokey
  else accept e

/-- The byte at an address of the host's memory; an address that is not listed gives no value (log 7). -/
def Memory.read : Memory → Nat → Option Byte
  | [], _ => none
  | (b, v) :: m, a => if b = a then some v else Memory.read m a

/-- MemWrite of one byte (`00_scope.md` R11), keeping the addresses rising. -/
def Memory.write : Memory → Nat → Byte → Memory
  | [], a, v => [(a, v)]
  | (b, w) :: m, a, v =>
    if a < b then (a, v) :: (b, w) :: m
    else if a = b then (a, v) :: m
    else (b, w) :: Memory.write m a v

/-- MemWrite of several bytes at rising addresses (`00_scope.md` R11). -/
def Memory.writeBytes (m : Memory) (a : Nat) : List Byte → Memory
  | [] => m
  | v :: vs => Memory.writeBytes (m.write a v) (a + 1) vs

/-- Note a value the host has read (`30_encoding.md` R88). -/
def State.record (s : State) (w : Word) : State := { s with reads := w :: s.reads }

/-- Put statements before the rest of the host's program. -/
def State.prepend (s : State) (l : List HostStmt) : State := { s with prog := l ++ s.prog }

end Sys2Proof.Machine
end

