-- ==== Sys2Proof/Machine/BlockCommands.lean ====
section
/-!
DEFINITION. The ENC and DEC commands and their engine steps (`43_block_network.md` R185 to R188).
-/

namespace Sys2Proof.Machine

/-- The acceptance ENC and DEC share (`43_block_network.md` R185, R186). -/
def blockAccept (dir : Dir) (e : Engine) : Engine :=
  { e with
    l := (blockHalves e.din).1
    r := (blockHalves e.din).2
    dirn := dir
    done := false
    cnt := 0x0#4
    phase := .block }

/-- BLOCK_complete (`43_block_network.md` R188). -/
def blockComplete (e : Engine) : Engine :=
  { e with dout := blockOutput (e.l, e.r), done := true, cnt := 0x0#4, phase := .idle }

/-- BLOCK_step (`43_block_network.md` R187): one Feistel round; the sixteenth also completes. -/
def blockStep (e : Engine) : Engine :=
  let lr := feistelRound (e.l, e.r) (keyFor e.rk e.dirn e.cnt.toNat)
  let e' := { e with l := lr.1, r := lr.2 }
  if e.cnt = 0xF#4 then blockComplete e' else { e' with cnt := e.cnt + 0x1#4 }

/-- ENC written to CTRL (`43_block_network.md` R185, `44_control_commands.md` R200). -/
def execEnc (s : State) : Host.Outcome State Fault Refusal :=
  .next (s.updSel (commandGate true (blockAccept .enc)))

/-- DEC written to CTRL (`43_block_network.md` R186, `44_control_commands.md` R200). -/
def execDec (s : State) : Host.Outcome State Fault Refusal :=
  .next (s.updSel (commandGate true (blockAccept .dec)))

end Sys2Proof.Machine
end

