-- ==== Sys2Proof/Machine/ControlCommands.lean ====
section
/-!
DEFINITION. NOP and CLR (`44_control_commands.md` R201, R202).
-/

namespace Sys2Proof.Machine

/-- NOP written to CTRL (`44_control_commands.md` R201): nothing changes, in any phase. -/
def execNop (s : State) : Host.Outcome State Fault Refusal :=
  .next s

/-- CLR written to CTRL (`44_control_commands.md` R202). -/
def execClr (s : State) : Host.Outcome State Fault Refusal :=
  .next (s.updSel (commandGate false Engine.acknowledge))

end Sys2Proof.Machine
end

