-- ==== Sys2Proof/Machine/KeyCommand.lean ====
section
/-!
DEFINITION. The KSCHED command and its engine steps (`41_key_schedule.md` R145 to R147).
-/

namespace Sys2Proof.Machine

/-- KSCHED_accept (`41_key_schedule.md` R145). -/
def kschedAccept (e : Engine) : Engine :=
  { e with
    c := (keyHalves e.key).1
    d := (keyHalves e.key).2
    keyValid := false
    cnt := 0x0#4
    phase := .ksched }

/-- KSCHED_complete (`41_key_schedule.md` R147). -/
def kschedComplete (e : Engine) : Engine :=
  { e with keyValid := true, cnt := 0x0#4, phase := .idle }

/-- KSCHED_step (`41_key_schedule.md` R146): one rotation pair and one round key. -/
def kschedStep (e : Engine) : Engine :=
  let cd := rotateHalves e.cnt.toNat (e.c, e.d)
  let e' := { e with c := cd.1, d := cd.2, rk := e.rk.set e.cnt.toNat (contract cd) }
  if e.cnt = 0xF#4 then kschedComplete e' else { e' with cnt := e.cnt + 0x1#4 }

/-- KSCHED written to CTRL (`41_key_schedule.md` R145, `44_control_commands.md` R200). -/
def execKsched (s : State) : Host.Outcome State Fault Refusal :=
  .next (s.updSel (commandGate false kschedAccept))

end Sys2Proof.Machine
end

