-- ==== Sys2Proof/Machine/Bus.lean ====
section
/-!
DEFINITION. Host accesses (`20_memory.md` R52 to R54) and the dispatch of a CTRL write (`44_control_commands.md` R200).
-/

namespace Sys2Proof.Machine

/-- Dispatch (`44_control_commands.md` R200) on the instance being written: a reserved word sets ERR_CMD (check 1), a
command runs its meaning. -/
def dispatch (w : Word) (s : State) : Host.Outcome State Fault Refusal :=
  match decode w with
  | .cmd i => exec i s
  | .reserved _ => .next (s.updSel (Engine.raise .cmd))

/-- A host read (`20_memory.md` R52): its value, or the fault; no state changes (R58). -/
def busRead (addr width : Nat) (s : State) : Except Fault Word :=
  match s.resolve addr width with
  | .error f => .error f
  | .ok (k, off) =>
    match s.engineAt k with
    | some e => .ok (readReg off e)
    | none => .error (.noWindow addr)

/-- A host write (`20_memory.md` R52, R54). -/
def busWrite (addr width : Nat) (v : Word) (s : State) : Host.Outcome State Fault Refusal :=
  match s.resolve addr width with
  | .error f => .fault f
  | .ok (k, off) =>
    if off = 0x00 then dispatch v { s with sel := k }
    else .next ({ s with sel := k }.updSel (writeReg off v))

end Sys2Proof.Machine
end

