-- ==== Sys2Proof/Machine/HostDriver.lean ====
section
/-!
DEFINITION. The host: the pseudo-instructions (`30_encoding.md` R89), the host procedure as a pure function over the
host's memory (`45_host_transform.md` R221 to R229), the program that computes it on the engine (R231, R232), and what
one statement of a host program does.
-/

namespace Sys2Proof.Machine

/-- `WR <reg>, v` on the window at `base` (`30_encoding.md` R88). -/
def wr (base : Nat) (r : Reg) (v : Word) : HostStmt := .bus (.write (regAddr base r) 32 v)

/-- `RD <reg>` on the window at `base` (`30_encoding.md` R88). -/
def rd (base : Nat) (r : Reg) : HostStmt := .bus (.read (regAddr base r) 32)

/-- The expansion of a pseudo-instruction on the window at `base` (`30_encoding.md` R89). -/
def expandPseudo (base : Nat) : Pseudo → List HostStmt
  | .command i => [wr base .ctrl (encode i)]
  | .wait => [.poll (regAddr base .status) 0x00000001#32 0x00000000#32]
  | .ldkey k => [wr base .keyHi (hiHalf k), wr base .keyLo (loHalf k)]
  | .lddin b => [wr base .dinHi (hiHalf b), wr base .dinLo (loHalf b)]
  | .rdout => [rd base .doutHi, rd base .doutLo]
  | .check => [.check base]

/-- PaddedLength (`45_host_transform.md` R221). -/
def paddedLength (length : Nat) : Nat :=
  if length % 8 = 0 then length else length + 8 - length % 8

/-- The padded length of a call. -/
def paddedOf (c : Call) : Nat := paddedLength c.length

/-- The buffers overlap partially (`45_host_transform.md` R229). -/
def overlapsPartly (c : Call) : Bool :=
  c.out != c.inp && decide (c.inp < c.out + paddedOf c) && decide (c.out < c.inp + paddedOf c)

/-- InByte (`45_host_transform.md` R226): a byte the caller's buffer holds is read as it stands; one it does not hold
is a draw. A byte the memory does not list is a draw too (log 7, log 8, log 9). -/
def inByte (c : Call) (pad : Nat → Byte) (m : Memory) (j : Nat) : Byte :=
  if j < c.length ∨ j < c.inCap then (m.read (c.inp + j)).getD (pad j) else pad j

/-- Pack64(InBytes(in, length, i)) (`45_host_transform.md` R226, R227). -/
def inBlock (c : Call) (pad : Nat → Byte) (m : Memory) (i : Nat) : Block :=
  pack64 (Vector.ofFn fun t => inByte c pad m (i + t.val))

/-- MemWrite(a, 8, Unpack64(v)) (`45_host_transform.md` R223). -/
def storeBlock (m : Memory) (a : Nat) (v : Block) : Memory :=
  m.writeBytes a (unpack64 v).toList

/-- The memory after the first `n` blocks (`45_host_transform.md` R223). -/
def transformBlocks (c : Call) (rk : Vector RoundKey 16) (pad : Nat → Byte) (m : Memory) : Nat → Memory
  | 0 => m
  | n + 1 =>
    let m' := transformBlocks c rk pad m n
    storeBlock m' (c.out + 8 * n) (network rk c.dir (inBlock c pad m' (8 * n)))

/-- Transform (`45_host_transform.md` R223) with the draws `pad`: the capacity check first (R222), then the refusal of
partial overlap (R229), then the key schedule once and the blocks (R224, R225). -/
def transform (c : Call) (pad : Nat → Byte) (m : Memory) : Host.Outcome (ProcResult × Memory) Fault Refusal :=
  if c.cap < paddedOf c then .next (.capacityError (paddedOf c) c.cap, m)
  else if overlapsPartly c then .refused .partialOverlap
  else .next (.returned (paddedOf c), transformBlocks c (keySchedule (pack64 c.key)) pad m (paddedOf c / 8))

/-- The instance that takes block `j` of a call: the instances in turn (`45_host_transform.md` R232, log 14). -/
def unitFor (c : Call) (j : Nat) : Nat := c.units.getD (j % c.units.length) c.unit

/-- ENC or DEC by the direction (`45_host_transform.md` R231). -/
def blockCommand : Dir → Instr
  | .enc => .enc
  | .dec => .dec

/-- The statements for block `j` (`45_host_transform.md` R231); `readOutHi` goes on to the store. -/
def blockProgram (c : Call) (p j : Nat) : List HostStmt :=
  let b := unitFor c j
  [.feedBlock b c p (8 * j)] ++ expandPseudo b (.command (blockCommand c.dir)) ++ expandPseudo b .wait
    ++ [.readOutHi b (c.out + 8 * j)]

/-- The body of TransformOnEngine after the capacity check (`45_host_transform.md` R231, R232), for call number `p`. -/
def callProgram (c : Call) (p : Nat) : List HostStmt :=
  c.units.flatMap (fun b =>
      expandPseudo b (.ldkey (pack64 c.key)) ++ expandPseudo b (.command .ksched) ++ expandPseudo b .wait)
    ++ (List.range (paddedOf c / 8)).flatMap (blockProgram c p)
    ++ c.units.flatMap (fun b => expandPseudo b .check)
    ++ [.ret (paddedOf c)]

/-- The error bits CHECK looks at (`30_encoding.md` R89). -/
def checkMask : Word := 0x00070000#32

/-- Read a register for the host and go on with the value. -/
def withRead (addr : Nat) (s : State) (k : Word → State) : Host.Outcome State Fault Refusal :=
  match busRead addr 32 s with
  | .ok w => .next (k w)
  | .error f => .fault f

/-- One statement of a host program, already taken off the program of `s` (`30_encoding.md` R87 to R90,
`45_host_transform.md` R231). R231 and U15 leave the output bytes open where the instance is reset or used by another
agent during a call. That the program then runs on over the instance as it stands, storing what DOUT holds, is the
model's choice (DESIGN CHOICE, log 22). -/
def hostStmt (st : HostStmt) (s : State) : Host.Outcome State Fault Refusal :=
  match st with
  | .bus (.write a width v) => busWrite a width v s
  | .bus (.read a width) =>
    match busRead a width s with
    | .ok w => .next (s.record w)
    | .error f => .fault f
  | .poll a mask value =>
    withRead a s fun w => if w &&& mask = value then s.record w else s.prepend [.poll a mask value]
  | .check base =>
    withRead (regAddr base .status) s fun w =>
      if w &&& checkMask = 0#32 then s.record w else { s.record w with failed := true, prog := [] }
  | .transform c =>
    if c.cap < paddedOf c then .next { s with result := some (.capacityError (paddedOf c) c.cap) }
    else if overlapsPartly c then .refused .partialOverlap
    else .next { s.prepend (callProgram c s.padDraws) with padDraws := s.padDraws + 1 }
  | .feedBlock base c p i =>
    .next (s.prepend (expandPseudo base (.lddin (inBlock c (Config.padDraw p) s.mem i))))
  | .readOutHi base a =>
    withRead (regAddr base .doutHi) s fun w => (s.record w).prepend [.readOutLo base a w]
  | .readOutLo base a hi =>
    withRead (regAddr base .doutLo) s fun w => (s.record w).prepend [.storeBlock a (joinHalves hi w)]
  | .storeBlock a v => .next { s with mem := storeBlock s.mem a v }
  | .ret n => .next { s with result := some (.returned n) }

/-- The host's turn: the next statement of its program, or nothing where it has finished. -/
def hostTurn (s : State) : Host.Outcome State Fault Refusal :=
  match s.prog with
  | [] => .next s
  | st :: rest => hostStmt st { s with prog := rest }

end Sys2Proof.Machine
end

