-- ==== Sys2Proof/Machine/Agents.lean ====
section
/-!
DEFINITION. What one move of an agent does (`00_scope.md` R8).
-/

namespace Sys2Proof.Machine

/-- One engine step (`41_key_schedule.md` R146, `43_block_network.md` R187): while idle no step is enabled
(`44_control_commands.md` R205, `60_exceptions.md` R254) and nothing changes. -/
def engineStep (e : Engine) : Engine :=
  match e.phase with
  | .idle => e
  | .ksched => kschedStep e
  | .block => blockStep e

/-- One move (`00_scope.md` R8): a statement of the host, an engine step, or a reset (`70_reset_and_hazards.md` R270).
A move of an instance that does not exist changes nothing (log 2). -/
def advance (who : Agent) (s : State) : Host.Outcome State Fault Refusal :=
  match who with
  | .host => hostTurn s
  | .engine k => .next (s.updAt k engineStep)
  | .reset k => .next (s.updAt k fun _ => Engine.reset)

/-- Who moves next: the head of the list of turns, or a draw (log 1). -/
def State.turn (s : State) : Agent :=
  match s.turns with
  | t :: _ => t
  | [] => Config.freeTurn s.turnDraws

/-- The state with its next turn taken off, or the draw counted (log 1). -/
def State.takeTurn (s : State) : State :=
  match s.turns with
  | _ :: ts => { s with turns := ts }
  | [] => { s with turnDraws := s.turnDraws + 1 }

end Sys2Proof.Machine
end

