-- ==== Sys2Proof/Machine/Step.lean ====
section
/-!
DEFINITION. One step of the machine: the agent whose turn it is makes its move. Where the next instruction is fetched
from: the host's program, whose next statement is a CTRL write (`30_encoding.md` R80, log 11).
-/

namespace Sys2Proof.Machine

/-- One step: the agent whose turn it is moves (`00_scope.md` R8, `20_memory.md` R60). -/
def step (s : State) : Host.Outcome State Fault Refusal :=
  advance s.turn s.takeTurn

/-- `s` with the host about to write the word `w` to CTRL of the instance `sel` (log 11). -/
def State.withFetchWord (s : State) (nbits w : Nat) : State :=
  { s with
    prog := .bus (.write s.ctrlAddr 32 (BitVec.ofNat 32 (w % 2 ^ nbits))) :: s.prog
    turns := .host :: s.turns }

end Sys2Proof.Machine
end

