-- ==== Sys2Proof/Machine/Collapsed.lean ====
section
/-!
DEFINITION. The collapsed reading of a command (`70_reset_and_hazards.md` R282): acceptance and all 16 engine steps as
one change, written with the pure functions. The step of the machine does not use it.
-/

namespace Sys2Proof.Machine

/-- `n` engine steps of one engine. -/
def engineSteps : Nat → Engine → Engine
  | 0, e => e
  | n + 1, e => engineSteps n (engineStep e)

/-- A completed key schedule (`41_key_schedule.md` R148). -/
def kschedWhole (e : Engine) : Engine :=
  { e with
    c := (keyHalves e.key).1
    d := (keyHalves e.key).2
    rk := keySchedule e.key
    keyValid := true
    cnt := 0x0#4
    phase := .idle }

/-- A completed block command (`43_block_network.md` R189). -/
def blockWhole (dir : Dir) (e : Engine) : Engine :=
  { e with
    l := (roundsFrom e.rk dir (blockHalves e.din) 16).1
    r := (roundsFrom e.rk dir (blockHalves e.din) 16).2
    dout := network e.rk dir e.din
    dirn := dir
    done := true
    cnt := 0x0#4
    phase := .idle }

/-- A command and all its engine steps at once (`70_reset_and_hazards.md` R280, R282). -/
def collapsedCommand (i : Instr) (e : Engine) : Engine :=
  match i with
  | .nop => e
  | .ksched => commandGate false kschedWhole e
  | .enc => commandGate true (blockWhole .enc) e
  | .dec => commandGate true (blockWhole .dec) e
  | .clr => commandGate false Engine.acknowledge e

end Sys2Proof.Machine
end

