-- ==== Sys2Proof/Safety.lean ====
section
/-!
DEFINITION. What counts as a good state and a good run: the invariants of `10_state.md` R39, the platform's promises
(`20_memory.md` R50), a round-key store that is what KEY_VALID says (`10_state.md` R31), runs over a list of turns,
fairness (`70_reset_and_hazards.md` R281) and the end of a run (R283).
-/

namespace Sys2Proof.Machine

/-- The invariants of one engine (`10_state.md` R39). PHASE is never 3 by its type. -/
abbrev Engine.Inv (e : Engine) : Prop :=
  (e.phase = .idle → e.cnt = 0x0#4) ∧
  (e.phase = .ksched → e.keyValid = false) ∧
  (e.phase = .block → e.keyValid = true) ∧
  (e.phase = .block → e.done = false)

/-- KEY_VALID means a complete schedule (`10_state.md` R31, `41_key_schedule.md` R148), and a running KSCHED has derived
the first CNT round keys of one key and holds that key's halves rotated so far (`41_key_schedule.md` R141, R146). -/
def Engine.KeyStoreSound (e : Engine) : Prop :=
  (e.keyValid = true → ∃ k, e.rk = keySchedule k ∧ (e.c, e.d) = keyHalves k) ∧
  (e.phase = .ksched → ∃ k, (e.c, e.d) = halvesAfter (keyHalves k) e.cnt.toNat ∧
    ∀ i, i < e.cnt.toNat → rkEntry e.rk i = roundKey k i)

/-- The platform's part (`20_memory.md` R50, `60_exceptions.md` R252): window bases are multiples of 64, no two
instances share a window, and the instance being written exists. -/
abbrev State.PlatformOk (s : State) : Prop :=
  s.sel < s.engines.length ∧
  (∀ x ∈ s.engines, x.base % 64 = 0) ∧
  s.engines.Pairwise (fun x y => x.base ≠ y.base)

/-- The invariant of the whole machine. -/
abbrev State.Inv (s : State) : Prop :=
  s.PlatformOk ∧ (∀ x ∈ s.engines, x.eng.Inv) ∧ s.mem.wf

/-- The turns `ts` put before the machine, and all of them taken: an explicit interleaving (`20_memory.md` R60). -/
def State.runTurns (ts : List Agent) (s : State) : Host.Outcome State Fault Refusal :=
  Sys2Proof.core.run ts.length { s with turns := ts }

/-- The first `n` turns of an infinite schedule. -/
def firstTurns (sched : Nat → Agent) (n : Nat) : List Agent := (List.range n).map sched

/-- Weak fairness of instance `k`'s step along a schedule from `s` (`70_reset_and_hazards.md` R281): if from some point
on PHASE is never IDLE, the engine takes a step at or after that point. -/
def WeaklyFair (k : Nat) (sched : Nat → Agent) (s : State) : Prop :=
  ∀ n, (∀ m, n ≤ m → ∃ t e, s.runTurns (firstTurns sched m) = .next t ∧ t.engineAt k = some e ∧ e.phase ≠ .idle) →
    ∃ m, n ≤ m ∧ sched m = .engine k

/-- The host moves again and again along a schedule. R281 guarantees the engine's step and no other progress, and yet
says that every WAIT ends: a WAIT ends only at a read of the host, so that consequence takes this premise beside
`WeaklyFair` (DEDUCED, log 24). -/
def HostKeepsMoving (sched : Nat → Agent) : Prop := ∀ n, ∃ m, n ≤ m ∧ sched m = .host

/-- The end of a run (`70_reset_and_hazards.md` R283): the host has finished and no engine has an enabled step. The rule
speaks of a run on one instance. That a host with several instances has ended only when EVERY instance is idle is the
model's choice (DESIGN CHOICE, log 23). -/
abbrev State.Finished (s : State) : Prop :=
  s.prog = [] ∧ ∀ x ∈ s.engines, x.eng.phase = .idle

/-- `s` with the engine `e` put into instance `k`, whose slot was `x`: everything else as before. Statements say with
it what changes and that nothing else does. -/
def State.putEngine (s : State) (k : Nat) (x : Slot) (e : Engine) : State :=
  { s with engines := s.engines.set k { x with eng := e } }

end Sys2Proof.Machine
end

