-- ==== Sys2Proof/Certificates/Slice0/Obligations.lean ====
section
/-!
DEFINITION. The statements for the provers. They speak of `step`, `exec` and the pure functions of the model; where a
state is changed, `putEngine` says that nothing else is. `x` is the slot of the instance in question before the step.
-/

open Sys2Proof Sys2Proof.Machine

/-! ## Encoding and dispatch -/

/-- R84: each of the five commands is exactly one word, all 32 bits compared, under its mnemonic. -/
def Obligations.OpcodeMapExact : Prop :=
  ∀ w : Word,
    (decode w = .cmd .nop ↔ w = 0x00000000#32) ∧
    (decode w = .cmd .ksched ↔ w = 0x00000001#32) ∧
    (decode w = .cmd .enc ↔ w = 0x00000002#32) ∧
    (decode w = .cmd .dec ↔ w = 0x00000003#32) ∧
    (decode w = .cmd .clr ↔ w = 0x00000004#32) ∧
    mnemonic .nop = "NOP" ∧ mnemonic .ksched = "KSCHED" ∧ mnemonic .enc = "ENC" ∧ mnemonic .dec = "DEC" ∧
    mnemonic .clr = "CLR"

/-- Decoding and encoding agree in both directions, also through `decodeTableWord`. -/
def Obligations.DecodeEncodeAgree : Prop :=
  (∀ i : Instr, i.wf = true →
    decode (encode i) = .cmd i ∧ decodeTableWord 32 (encode i).toNat = some i ∧ ctrlWordWf (encode i) = true) ∧
  (∀ (w : Word) (i : Instr), decode w = .cmd i → w = encode i)

/-- R85 on decoding: a word is reserved exactly where CMD is 5 or more or a RSVD bit is set, and it is kept whole. -/
def Obligations.ReservedWordsExact : Prop :=
  ∀ w : Word,
    (decode w = .reserved w ↔ (w.extractLsb' 4 28 ≠ 0#28 ∨ 5 ≤ (w.extractLsb' 0 4).toNat)) ∧
    (∀ v, decode w = .reserved v → v = w)

/-- A few words written out from R81 and R84 decode to what they stand for. -/
def Obligations.WrittenWordsDecode : Prop :=
  decode 0b00000000000000000000000000000000#32 = .cmd .nop ∧
  decode 0b00000000000000000000000000000001#32 = .cmd .ksched ∧
  decode 0b00000000000000000000000000000010#32 = .cmd .enc ∧
  decode 0b00000000000000000000000000000011#32 = .cmd .dec ∧
  decode 0b00000000000000000000000000000100#32 = .cmd .clr ∧
  decode 0b00000000000000000000000000000101#32 = .reserved 0x00000005#32 ∧
  decode 0b00000000000000000000000000010000#32 = .reserved 0x00000010#32 ∧
  decode 0b10000000000000000000000000000001#32 = .reserved 0x80000001#32

/-- A step runs the decoded instruction: where the host moves and its next statement writes a command to CTRL of
instance `k`, the step is that command's meaning with the turn and the statement taken off and `k` selected. -/
def Obligations.StepRunsCommand : Prop :=
  ∀ (s : State) (k : Nat) (x : Slot) (i : Instr) (w : Word) (ts : List Agent) (rest : List HostStmt),
    s.PlatformOk → s.engines[k]? = some x → i.wf = true → decode w = .cmd i →
    s.turns = .host :: ts → s.prog = .bus (.write x.base 32 w) :: rest →
    step s = exec i { s with turns := ts, prog := rest, sel := k }

/-- `withFetchWord` makes the very next step run the word's command in the state as it was. -/
def Obligations.FetchWordRunsCommand : Prop :=
  ∀ (s : State) (i : Instr), s.PlatformOk → i.wf = true →
    step (s.withFetchWord 32 (encode i).toNat) = exec i s

/-- R200, whole: what a write of any word `w` to CTRL does, in the order of the checks, and that nothing else changes.
The order is also the priority of the engine's own errors. -/
def Obligations.CtrlWriteDispatch : Prop :=
  ∀ (s : State) (k : Nat) (x : Slot) (w : Word) (ts : List Agent) (rest : List HostStmt),
    s.PlatformOk → s.engines[k]? = some x →
    s.turns = .host :: ts → s.prog = .bus (.write x.base 32 w) :: rest →
    step s = .next (({ s with turns := ts, prog := rest, sel := k } : State).putEngine k x
      (if 5 ≤ w.toNat then { x.eng with errCmd := true }
       else if w = 0#32 then x.eng
       else if x.eng.phase ≠ .idle then { x.eng with errBusy := true }
       else if (w = 2#32 ∨ w = 3#32) ∧ x.eng.keyValid = false then { x.eng with errNokey := true }
       else if w = 1#32 then
         { x.eng with
           c := permute 28 pc1C x.eng.key, d := permute 28 pc1D x.eng.key,
           keyValid := false, cnt := 0#4, phase := .ksched }
       else if w = 2#32 then
         { x.eng with
           l := (permute 64 ip x.eng.din).extractLsb' 32 32, r := (permute 64 ip x.eng.din).extractLsb' 0 32,
           dirn := .enc, done := false, cnt := 0#4, phase := .block }
       else if w = 3#32 then
         { x.eng with
           l := (permute 64 ip x.eng.din).extractLsb' 32 32, r := (permute 64 ip x.eng.din).extractLsb' 0 32,
           dirn := .dec, done := false, cnt := 0#4, phase := .block }
       else { x.eng with done := false, errCmd := false, errBusy := false, errNokey := false }))

/-! ## The five commands, one by one: result, rejection and frame -/

/-- R201: NOP completes in every state and changes nothing; a word with CMD 0 and a RSVD bit set is not NOP but
reserved, and sets ERR_CMD. -/
def Obligations.NopChangesNothing : Prop :=
  (∀ s : State, exec .nop s = .next s) ∧
  decode 0x00000000#32 = .cmd .nop ∧
  (∀ w : Word, w.extractLsb' 0 4 = 0#4 → w.extractLsb' 4 28 ≠ 0#28 →
    decode w = .reserved w ∧ ∀ (s : State) (x : Slot), s.engines[s.sel]? = some x →
      dispatch w s = .next (s.putEngine s.sel x { x.eng with errCmd := true }))

/-- R145: KSCHED on an idle engine is accepted; on a busy one it only sets ERR_BUSY. -/
def Obligations.KschedCommand : Prop :=
  ∀ (s : State) (x : Slot), s.engines[s.sel]? = some x →
    (x.eng.phase = .idle → exec .ksched s = .next (s.putEngine s.sel x
      { x.eng with
        c := permute 28 pc1C x.eng.key, d := permute 28 pc1D x.eng.key,
        keyValid := false, cnt := 0#4, phase := .ksched })) ∧
    (x.eng.phase ≠ .idle → exec .ksched s = .next (s.putEngine s.sel x { x.eng with errBusy := true }))

/-- R185: ENC on an idle engine with a valid key is accepted; on a busy one it only sets ERR_BUSY; without a key it only
sets ERR_NOKEY. -/
def Obligations.EncCommand : Prop :=
  ∀ (s : State) (x : Slot), s.engines[s.sel]? = some x →
    (x.eng.phase = .idle → x.eng.keyValid = true → exec .enc s = .next (s.putEngine s.sel x
      { x.eng with
        l := (permute 64 ip x.eng.din).extractLsb' 32 32, r := (permute 64 ip x.eng.din).extractLsb' 0 32,
        dirn := .enc, done := false, cnt := 0#4, phase := .block })) ∧
    (x.eng.phase ≠ .idle → exec .enc s = .next (s.putEngine s.sel x { x.eng with errBusy := true })) ∧
    (x.eng.phase = .idle → x.eng.keyValid = false →
      exec .enc s = .next (s.putEngine s.sel x { x.eng with errNokey := true }))

/-- R186: DEC likewise, with the direction 1. -/
def Obligations.DecCommand : Prop :=
  ∀ (s : State) (x : Slot), s.engines[s.sel]? = some x →
    (x.eng.phase = .idle → x.eng.keyValid = true → exec .dec s = .next (s.putEngine s.sel x
      { x.eng with
        l := (permute 64 ip x.eng.din).extractLsb' 32 32, r := (permute 64 ip x.eng.din).extractLsb' 0 32,
        dirn := .dec, done := false, cnt := 0#4, phase := .block })) ∧
    (x.eng.phase ≠ .idle → exec .dec s = .next (s.putEngine s.sel x { x.eng with errBusy := true })) ∧
    (x.eng.phase = .idle → x.eng.keyValid = false →
      exec .dec s = .next (s.putEngine s.sel x { x.eng with errNokey := true }))

/-- R202: CLR on an idle engine clears DONE and the three error flags and nothing else; on a busy one it only sets
ERR_BUSY. With the rule's encoding and worked example. -/
def Obligations.ClrCommand : Prop :=
  ∀ (s : State) (x : Slot), s.engines[s.sel]? = some x →
    (x.eng.phase = .idle → exec .clr s = .next (s.putEngine s.sel x
      { x.eng with done := false, errCmd := false, errBusy := false, errNokey := false })) ∧
    (x.eng.phase ≠ .idle → exec .clr s = .next (s.putEngine s.sel x { x.eng with errBusy := true })) ∧
    decode 0x00000004#32 = .cmd .clr ∧
    (statusWord x.eng = 0x00030006#32 →
      ∃ t y, exec .clr s = .next t ∧ t.engines[s.sel]? = some y ∧ statusWord y.eng = 0x00000002#32)

/-! ## Engine steps and reset -/

/-- R146 and R147: an engine step in the KSCHED phase, and its completion at step 15. -/
def Obligations.KschedEngineStep : Prop :=
  ∀ (s : State) (k : Nat) (x : Slot) (ts : List Agent),
    s.turns = .engine k :: ts → s.engines[k]? = some x → x.eng.phase = .ksched →
    ∀ c d, c = rotl28 x.eng.c (if x.eng.cnt.toNat ∈ [0, 1, 8, 15] then 1 else 2) →
      d = rotl28 x.eng.d (if x.eng.cnt.toNat ∈ [0, 1, 8, 15] then 1 else 2) →
      (x.eng.cnt ≠ 15#4 → step s = .next (({ s with turns := ts } : State).putEngine k x
        { x.eng with
          c := c, d := d, rk := x.eng.rk.set x.eng.cnt.toNat (permute 48 pc2 (c ++ d)),
          cnt := x.eng.cnt + 1#4 })) ∧
      (x.eng.cnt = 15#4 → step s = .next (({ s with turns := ts } : State).putEngine k x
        { x.eng with
          c := c, d := d, rk := x.eng.rk.set x.eng.cnt.toNat (permute 48 pc2 (c ++ d)),
          keyValid := true, cnt := 0#4, phase := .idle }))

/-- R187 and R188: an engine step in the BLOCK phase, and its completion at step 15, after that step's round. -/
def Obligations.BlockEngineStep : Prop :=
  ∀ (s : State) (k : Nat) (x : Slot) (ts : List Agent),
    s.turns = .engine k :: ts → s.engines[k]? = some x → x.eng.phase = .block →
    ∀ key r', key = (if x.eng.dirn = .enc then x.eng.rk[x.eng.cnt.toNat] else x.eng.rk[15 - x.eng.cnt.toNat]) →
      r' = x.eng.l ^^^ feistelF x.eng.r key →
      (x.eng.cnt ≠ 15#4 → step s = .next (({ s with turns := ts } : State).putEngine k x
        { x.eng with l := x.eng.r, r := r', cnt := x.eng.cnt + 1#4 })) ∧
      (x.eng.cnt = 15#4 → step s = .next (({ s with turns := ts } : State).putEngine k x
        { x.eng with
          l := x.eng.r, r := r', dout := permute 64 fp (r' ++ x.eng.r), done := true, cnt := 0#4,
          phase := .idle }))

/-- An idle engine has no enabled step (R205, R254): its turn changes nothing. That such a turn passes is the model's
choice (log 2). -/
def Obligations.IdleEngineTakesNoStep : Prop :=
  ∀ (s : State) (k : Nat) (x : Slot) (ts : List Agent),
    s.turns = .engine k :: ts → s.engines[k]? = some x → x.eng.phase = .idle → step s = .next { s with turns := ts }

/-- R270: a reset, in any phase, puts every element of the instance at its reset value and touches nothing else. -/
def Obligations.ResetClearsInstance : Prop :=
  ∀ (s : State) (k : Nat) (x : Slot) (ts : List Agent),
    s.turns = .reset k :: ts → s.engines[k]? = some x →
    step s = .next (({ s with turns := ts } : State).putEngine k x
      { key := 0#64, din := 0#64, dout := 0#64, c := 0#28, d := 0#28, rk := Vector.replicate 16 0#48, l := 0#32, r := 0#32,
        dirn := .enc, phase := .idle, cnt := 0#4, keyValid := false, done := false, errCmd := false, errBusy := false,
        errNokey := false })

/-- What the registers read right after reset. One instance at base 0 is the model's choice (log 3). -/
def Obligations.RegistersAfterReset : Prop :=
  busRead 0x04 32 State.reset = .ok 0x00000000#32 ∧ busRead 0x10 32 State.reset = .ok 0x00000000#32 ∧
  busRead 0x14 32 State.reset = .ok 0x00000000#32 ∧ busRead 0x18 32 State.reset = .ok 0x00000000#32 ∧
  busRead 0x1C 32 State.reset = .ok 0x00000000#32 ∧ busRead 0x20 32 State.reset = .ok 0x44455301#32

/-! ## Register accesses -/

/-- R53 and R54: what every permitted read gives and every permitted write does, at every offset of the window. A read
changes nothing but what the host has read. -/
def Obligations.RegisterMap : Prop :=
  ∀ (s : State) (k : Nat) (x : Slot) (off : Nat) (v : Word) (ts : List Agent) (rest : List HostStmt),
    s.PlatformOk → s.engines[k]? = some x → off < 64 → off % 4 = 0 → s.turns = .host :: ts →
    (s.prog = .bus (.read (x.base + off) 32) :: rest →
      step s = .next { s with
        turns := ts, prog := rest,
        reads := (match off with
          | 0x04 => statusWord x.eng
          | 0x10 => x.eng.din.extractLsb' 32 32
          | 0x14 => x.eng.din.extractLsb' 0 32
          | 0x18 => x.eng.dout.extractLsb' 32 32
          | 0x1C => x.eng.dout.extractLsb' 0 32
          | 0x20 => 0x44455301#32
          | _ => 0x00000000#32) :: s.reads }) ∧
    (s.prog = .bus (.write (x.base + off) 32 v) :: rest →
      (off = 0x00 → step s = dispatch v { s with turns := ts, prog := rest, sel := k }) ∧
      (off ≠ 0x00 → step s = .next (({ s with turns := ts, prog := rest, sel := k } : State).putEngine k x
        (match off with
          | 0x08 => { x.eng with key := v ++ x.eng.key.extractLsb' 0 32 }
          | 0x0C => { x.eng with key := x.eng.key.extractLsb' 32 32 ++ v }
          | 0x10 => { x.eng with din := v ++ x.eng.din.extractLsb' 0 32 }
          | 0x14 => { x.eng with din := x.eng.din.extractLsb' 32 32 ++ v }
          | _ => x.eng))))

/-- R52: an access of another width, or at an offset that is not a multiple of 4, is BusError, also where it would
write CTRL; every other access of the window goes through, a read giving `readReg`, a write to CTRL running the dispatch
and any other write doing `writeReg` to the one engine. -/
def Obligations.BadAccessIsBusError : Prop :=
  ∀ (s : State) (k : Nat) (x : Slot) (off width : Nat) (v : Word) (ts : List Agent) (rest : List HostStmt),
    s.PlatformOk → s.engines[k]? = some x → off < 64 → s.turns = .host :: ts →
    ((width ≠ 32 ∨ off % 4 ≠ 0) →
      s.prog = .bus (.read (x.base + off) width) :: rest ∨ s.prog = .bus (.write (x.base + off) width v) :: rest →
      step s = .fault (.busError off)) ∧
    (width = 32 → off % 4 = 0 →
      (s.prog = .bus (.read (x.base + off) width) :: rest →
        step s = .next { s with turns := ts, prog := rest, reads := readReg off x.eng :: s.reads }) ∧
      (s.prog = .bus (.write (x.base + off) width v) :: rest →
        (off = 0 → step s = dispatch v { s with turns := ts, prog := rest, sel := k }) ∧
        (off ≠ 0 → step s = .next (({ s with turns := ts, prog := rest, sel := k } : State).putEngine k x
          (writeReg off v x.eng)))))

/-- An access outside every window stops with its own fault: the model's choice (log 5). -/
def Obligations.AccessOutsideWindowsFaults : Prop :=
  ∀ (s : State) (a width : Nat) (v : Word) (ts : List Agent) (rest : List HostStmt),
    (∀ x ∈ s.engines, a < x.base ∨ x.base + 64 ≤ a) → s.turns = .host :: ts →
    (s.prog = .bus (.read a width) :: rest ∨ s.prog = .bus (.write a width v) :: rest) →
    step s = .fault (.noWindow a)

/-- R34: every field of the STATUS word, its reserved bits, that writes to it are ignored, its reset value, and that a
read gives it as it is at that moment and changes nothing else. -/
def Obligations.StatusLayout : Prop :=
  (∀ e : Engine,
    (statusWord e).getLsbD 0 = decide (e.phase ≠ .idle) ∧
    (statusWord e).getLsbD 1 = e.keyValid ∧
    (statusWord e).getLsbD 2 = e.done ∧
    (statusWord e).getLsbD 3 = decide (e.dirn = .dec) ∧
    (statusWord e).extractLsb' 4 2 = (match e.phase with | .idle => 0#2 | .ksched => 1#2 | .block => 2#2) ∧
    (statusWord e).extractLsb' 6 2 = 0#2 ∧
    (statusWord e).extractLsb' 8 4 = e.cnt ∧
    (statusWord e).extractLsb' 12 4 = 0#4 ∧
    (statusWord e).getLsbD 16 = e.errCmd ∧
    (statusWord e).getLsbD 17 = e.errBusy ∧
    (statusWord e).getLsbD 18 = e.errNokey ∧
    (statusWord e).extractLsb' 19 13 = 0#13) ∧
  (∀ (e : Engine) (v : Word), writeReg 0x04 v e = e) ∧
  statusWord Engine.reset = 0x00000000#32 ∧
  (∀ (s : State) (k : Nat) (x : Slot) (ts : List Agent) (rest : List HostStmt),
    s.PlatformOk → s.engines[k]? = some x → s.turns = .host :: ts →
    s.prog = .bus (.read (x.base + 0x04) 32) :: rest →
    step s = .next { s with turns := ts, prog := rest, reads := statusWord x.eng :: s.reads })

/-- Writing both halves of KEY or DIN, in either order, writes the whole register and nothing else. -/
def Obligations.HalvesWriteWholeRegister : Prop :=
  ∀ (e : Engine) (v : Block),
    writeReg 0x0C (v.extractLsb' 0 32) (writeReg 0x08 (v.extractLsb' 32 32) e) = { e with key := v } ∧
    writeReg 0x08 (v.extractLsb' 32 32) (writeReg 0x0C (v.extractLsb' 0 32) e) = { e with key := v } ∧
    writeReg 0x14 (v.extractLsb' 0 32) (writeReg 0x10 (v.extractLsb' 32 32) e) = { e with din := v } ∧
    writeReg 0x10 (v.extractLsb' 32 32) (writeReg 0x14 (v.extractLsb' 0 32) e) = { e with din := v }

/-- A write to KEY or DIN, or an ignored write, never disturbs a command in progress: it commutes with any number of
engine steps. -/
def Obligations.OperandWritesDoNotDisturb : Prop :=
  ∀ (e : Engine) (off n : Nat) (v : Word),
    engineSteps n (writeReg off v e) = writeReg off v (engineSteps n e)

/-- KEY is read only by the acceptance of KSCHED, and no read shows it: two machines that differ only in the KEY of one
instance make the same step, up to that KEY, unless the step is a CTRL write of KSCHED to that instance. -/
def Obligations.KeyReadOnlyByKsched : Prop :=
  ∀ (s t : State) (k : Nat) (x : Slot) (v : Block),
    s.engines[k]? = some x → step s = .next t →
    ¬(s.turn = .host ∧ ∃ rest, s.prog = .bus (.write x.base 32 (encode .ksched)) :: rest) →
    ∃ y v', t.engines[k]? = some y ∧
      step (s.putEngine k x { x.eng with key := v }) = .next (t.putEngine k y { y.eng with key := v' })

/-! ## Who writes what: rules about every step of the machine -/

/-- Error flags are sticky: one that is set goes off only by a reset, or by CLR written while the engine is idle. -/
def Obligations.ErrorFlagsSticky : Prop :=
  ∀ (s t : State) (k : Nat) (x y : Slot), step s = .next t → s.engines[k]? = some x → t.engines[k]? = some y →
    ((x.eng.errCmd = true ∧ y.eng.errCmd = false) ∨ (x.eng.errBusy = true ∧ y.eng.errBusy = false) ∨
      (x.eng.errNokey = true ∧ y.eng.errNokey = false)) →
    s.turn = .reset k ∨
    (s.turn = .host ∧ x.eng.phase = .idle ∧ ∃ rest, s.prog = .bus (.write x.base 32 0x00000004#32) :: rest)

/-- R31: KEY_VALID goes on only at the last engine step of a KSCHED, and off only at a KSCHED's acceptance or a
reset. -/
def Obligations.KeyValidWriters : Prop :=
  ∀ (s t : State) (k : Nat) (x y : Slot), step s = .next t → s.engines[k]? = some x → t.engines[k]? = some y →
    (x.eng.keyValid = false → y.eng.keyValid = true →
      s.turn = .engine k ∧ x.eng.phase = .ksched ∧ x.eng.cnt = 15#4) ∧
    (x.eng.keyValid = true → y.eng.keyValid = false →
      s.turn = .reset k ∨
      (s.turn = .host ∧ x.eng.phase = .idle ∧ ∃ rest, s.prog = .bus (.write x.base 32 0x00000001#32) :: rest))

/-- R23: DOUT changes only at the last engine step of a block command or by a reset. -/
def Obligations.DoutWriters : Prop :=
  ∀ (s t : State) (k : Nat) (x y : Slot), step s = .next t → s.engines[k]? = some x → t.engines[k]? = some y →
    y.eng.dout ≠ x.eng.dout →
    s.turn = .reset k ∨ (s.turn = .engine k ∧ x.eng.phase = .block ∧ x.eng.cnt = 15#4)

/-- R25: entry `i` of the round-key store changes only at engine step `i` of a KSCHED or by a reset. -/
def Obligations.RoundKeyWriters : Prop :=
  ∀ (s t : State) (k : Nat) (x y : Slot), step s = .next t → s.engines[k]? = some x → t.engines[k]? = some y →
    ∀ (i : Nat) (h : i < 16), y.eng.rk[i] ≠ x.eng.rk[i] →
      s.turn = .reset k ∨ (s.turn = .engine k ∧ x.eng.phase = .ksched ∧ x.eng.cnt.toNat = i)

/-- R32: DONE goes on only at the last engine step of a block command, and off only at the acceptance of ENC or DEC, at
CLR while idle, or by a reset. -/
def Obligations.DoneWriters : Prop :=
  ∀ (s t : State) (k : Nat) (x y : Slot), step s = .next t → s.engines[k]? = some x → t.engines[k]? = some y →
    (x.eng.done = false → y.eng.done = true →
      s.turn = .engine k ∧ x.eng.phase = .block ∧ x.eng.cnt = 15#4) ∧
    (x.eng.done = true → y.eng.done = false →
      s.turn = .reset k ∨
      (s.turn = .host ∧ x.eng.phase = .idle ∧ ∃ w rest, s.prog = .bus (.write x.base 32 w) :: rest ∧
        (w = 0x00000004#32 ∨ (x.eng.keyValid = true ∧ (w = 0x00000002#32 ∨ w = 0x00000003#32)))))

/-- R41: a step changes the registers of at most one instance, the one whose engine steps, which is reset, or whose
window the host writes; no step adds, removes or moves an instance. -/
def Obligations.OtherInstancesUntouched : Prop :=
  ∀ (s t : State), step s = .next t →
    t.engines.map Slot.base = s.engines.map Slot.base ∧
    ∀ k x, s.engines[k]? = some x → t.engines[k]? ≠ some x →
      s.turn = .engine k ∨ s.turn = .reset k ∨
      (s.turn = .host ∧ ∃ a v rest, s.prog = .bus (.write a 32 v) :: rest ∧ x.base ≤ a ∧ a < x.base + 64)

/-! ## Invariants -/

/-- The reset state meets every invariant. -/
def Obligations.ResetMeetsInvariants : Prop :=
  State.reset.Inv ∧ (∀ x ∈ State.reset.engines, x.eng.KeyStoreSound)

/-- R39 for every engine is kept by every step from every state that has it, and with it the platform's promise of
aligned and disjoint windows (`20_memory.md` R50). That `sel` names an instance (log 4) and that the host's memory has
its canonical form (log 7) are the model's own. -/
def Obligations.StepKeepsInvariant : Prop :=
  ∀ s t : State, s.Inv → step s = .next t → t.Inv

/-- KEY_VALID keeps meaning that the store holds the complete schedule of one key. -/
def Obligations.StepKeepsKeyStoreSound : Prop :=
  ∀ s t : State, (∀ x ∈ s.engines, x.eng.Inv) → (∀ x ∈ s.engines, x.eng.KeyStoreSound) → step s = .next t →
    ∀ x ∈ t.engines, x.eng.KeyStoreSound

/-! ## Whole commands -/

/-- A KSCHED just accepted for the key `k64` completes at its 16th engine step with that key's schedule, whatever the
host and the other instances do in between, as long as the instance is not reset. -/
def Obligations.KschedRunUnderInterleaving : Prop :=
  ∀ (s t : State) (k : Nat) (x : Slot) (k64 : Block) (ts : List Agent),
    s.engines[k]? = some x → x.eng.phase = .ksched → x.eng.cnt = 0#4 →
    x.eng.c = permute 28 pc1C k64 → x.eng.d = permute 28 pc1D k64 →
    ts.count (.engine k) = 15 → Agent.reset k ∉ ts →
    s.runTurns (ts ++ [.engine k]) = .next t →
    ∃ y, t.engines[k]? = some y ∧ y.eng.rk = keySchedule k64 ∧ y.eng.c = permute 28 pc1C k64 ∧
      y.eng.d = permute 28 pc1D k64 ∧ y.eng.keyValid = true ∧ y.eng.phase = .idle ∧ y.eng.cnt = 0#4 ∧
      y.eng.dout = x.eng.dout ∧ y.eng.done = x.eng.done ∧ y.eng.dirn = x.eng.dirn

/-- An ENC or DEC just accepted for the block `b` completes at its 16th engine step with the network's value under the
stored round keys, whatever the host and the other instances do in between, as long as the instance is not reset. -/
def Obligations.BlockRunUnderInterleaving : Prop :=
  ∀ (s t : State) (k : Nat) (x : Slot) (b : Block) (ts : List Agent),
    s.engines[k]? = some x → x.eng.phase = .block → x.eng.cnt = 0#4 →
    x.eng.l = (permute 64 ip b).extractLsb' 32 32 → x.eng.r = (permute 64 ip b).extractLsb' 0 32 →
    ts.count (.engine k) = 15 → Agent.reset k ∉ ts →
    s.runTurns (ts ++ [.engine k]) = .next t →
    ∃ y, t.engines[k]? = some y ∧ y.eng.dout = network x.eng.rk x.eng.dirn b ∧ y.eng.rk = x.eng.rk ∧
      y.eng.dirn = x.eng.dirn ∧ y.eng.done = true ∧ y.eng.keyValid = x.eng.keyValid ∧ y.eng.phase = .idle ∧
      y.eng.cnt = 0#4

/-- The stepped command and the collapsed one agree: on an idle engine, a command followed by 16 engine steps gives
exactly what the pure functions say. -/
def Obligations.CollapsedCommandAgrees : Prop :=
  ∀ (i : Instr) (s : State) (x : Slot), s.engines[s.sel]? = some x → x.eng.phase = .idle →
    ∃ t y, exec i s = .next t ∧ t.engines[s.sel]? = some y ∧ engineSteps 16 y.eng = collapsedCommand i x.eng

/-- Under weak fairness, with no reset of the instance and a run that does not stop, a busy engine becomes idle; and a
WAIT that the host has come to ends, with the instance idle, whatever the other instances do and with or without
resets. That the host keeps moving is a premise the model reads into the rule (log 24). -/
def Obligations.FairCommandCompletes : Prop :=
  (∀ (s : State) (k : Nat) (x : Slot) (sched : Nat → Agent),
    s.engines[k]? = some x → WeaklyFair k sched s → (∀ n, sched n ≠ .reset k) →
    (∀ n, ∃ t, s.runTurns (firstTurns sched n) = .next t) →
    ∃ n t y, s.runTurns (firstTurns sched n) = .next t ∧ t.engines[k]? = some y ∧ y.eng.phase = .idle) ∧
  (∀ (s : State) (k : Nat) (x : Slot) (rest : List HostStmt) (sched : Nat → Agent),
    s.PlatformOk → s.engines[k]? = some x → s.prog = expandPseudo x.base .wait ++ rest →
    WeaklyFair k sched s → HostKeepsMoving sched →
    ∃ n t y, s.runTurns (firstTurns sched n) = .next t ∧ t.prog = rest ∧ t.engines[k]? = some y ∧
      y.eng.phase = .idle)

/-! ## Laws of the cipher -/

/-- R100: output position `j` of Permute is input position `T[j]`, positions counted from 1 at the most significant
bit. -/
def Obligations.PermuteSelectsPositions : Prop :=
  ∀ (n m : Nat) (table : List Nat) (v : BitVec n) (j : Nat) (hlen : table.length = m) (h1 : 1 ≤ j) (hj : j ≤ m),
    (permute m table v).getLsbD (m - j) = v.getLsbD (n - table[j - 1])

/-- After the sixteenth round the halves are back where they started. -/
def Obligations.HalvesReturn : Prop :=
  ∀ cd : KeyHalf × KeyHalf, halvesAfter cd 16 = cd

/-- The closed form of the rotations: round `i`'s halves are the starting halves rotated one bit, as many times as the
schedule's first `i + 1` amounts add up to. -/
def Obligations.CumulativeRotation : Prop :=
  ∀ (key : Block) (i : Nat), i < 16 →
    roundKey key i = permute 48 pc2
      (((fun h => rotl28 h 1)^[((List.range (i + 1)).map shiftAmount).sum] (permute 28 pc1C key)) ++
       ((fun h => rotl28 h 1)^[((List.range (i + 1)).map shiftAmount).sum] (permute 28 pc1D key)))

/-- Changing parity bits of the key changes no round key. -/
def Obligations.ParityBitsIgnored : Prop :=
  ∀ key mask : Block, mask &&& 0xFEFEFEFEFEFEFEFE#64 = 0#64 → keySchedule (key ^^^ mask) = keySchedule key

/-- The four weak keys have sixteen equal round keys. -/
def Obligations.WeakKeySchedules : Prop :=
  keySchedule 0x0101010101010101#64 = Vector.replicate 16 0x000000000000#48 ∧
  keySchedule 0xFEFEFEFEFEFEFEFE#64 = Vector.replicate 16 0xFFFFFFFFFFFF#48 ∧
  keySchedule 0x1F1F1F1F0E0E0E0E#64 = Vector.replicate 16 0x000000FFFFFF#48 ∧
  keySchedule 0xE0E0E0E0F1F1F1F1#64 = Vector.replicate 16 0xFFFFFF000000#48

/-- With equal round keys ENC and DEC coincide, and encrypting twice gives the input back. -/
def Obligations.EqualRoundKeysSelfInverse : Prop :=
  ∀ (k : RoundKey) (b : Block),
    network (Vector.replicate 16 k) .enc b = network (Vector.replicate 16 k) .dec b ∧
    network (Vector.replicate 16 k) .enc (network (Vector.replicate 16 k) .enc b) = b

/-- F is unchanged when both its arguments are complemented. -/
def Obligations.RoundFunctionComplement : Prop :=
  ∀ (r : Half) (k : RoundKey), feistelF (~~~r) (~~~k) = feistelF r k

/-- DES of the complements is the complement of DES, in both directions. -/
def Obligations.DesComplement : Prop :=
  ∀ (key : Block) (dir : Dir) (b : Block), des (~~~key) dir (~~~b) = ~~~(des key dir b)

/-- FP and IP undo each other. -/
def Obligations.FinalUndoesInitialPermutation : Prop :=
  ∀ v : Block, permute 64 fp (permute 64 ip v : Block) = v ∧ permute 64 ip (permute 64 fp v : Block) = v

/-- A round is undone with the same key; so decryption undoes encryption and the reverse, for any sixteen round keys and
every block. -/
def Obligations.NetworkInverse : Prop :=
  (∀ (l r l' r' : Half) (k : RoundKey), feistelRound (l, r) k = (l', r') → l = r' ^^^ feistelF l' k ∧ r = l') ∧
  ∀ (rk : Vector RoundKey 16) (b : Block),
    network rk .dec (network rk .enc b) = b ∧ network rk .enc (network rk .dec b) = b

/-- The source's known-answer vector in both directions, and the corner values of F. -/
def Obligations.KnownAnswers : Prop :=
  des 0x133457799BBCDFF1#64 .enc 0x0123456789ABCDEF#64 = 0x85E813540F0AB405#64 ∧
  des 0x133457799BBCDFF1#64 .dec 0x85E813540F0AB405#64 = 0x0123456789ABCDEF#64 ∧
  feistelF 0x00000000#32 0x000000000000#48 = 0xD8D8DBBC#32 ∧
  feistelF 0xFFFFFFFF#32 0xFFFFFFFFFFFF#48 = 0xD8D8DBBC#32 ∧
  feistelF 0x00000000#32 0xFFFFFFFFFFFF#48 = 0x38DBF9CB#32 ∧
  feistelF 0xFFFFFFFF#32 0x000000000000#48 = 0x38DBF9CB#32 ∧
  feistelF 0xF0AAF0AA#32 0x1B02EFFC7072#48 = 0x234AA9BB#32

/-- A block command's result does not depend on any earlier one: only on the direction, the round keys and DIN. -/
def Obligations.BlockIndependence : Prop :=
  ∀ (dir : Dir) (e e' : Engine), e.rk = e'.rk → e.din = e'.din →
    (engineSteps 16 (blockAccept dir e)).dout = (engineSteps 16 (blockAccept dir e')).dout

/-! ## The host -/

/-- R221: the padded length is the next multiple of 8. -/
def Obligations.PaddedLengthRule : Prop :=
  (∀ n, (n % 8 = 0 → paddedLength n = n) ∧ (n % 8 ≠ 0 → paddedLength n = n + 8 - n % 8)) ∧
  (∀ n, paddedLength n % 8 = 0 ∧ n ≤ paddedLength n ∧ paddedLength n < n + 8) ∧
  paddedLength 0 = 0 ∧ paddedLength 5 = 8 ∧ paddedLength 8 = 8 ∧ paddedLength 16 = 16 ∧ paddedLength 17 = 24

/-- R227: where each byte of a block stands, and that packing and unpacking undo each other. -/
def Obligations.PackingIsBigEndian : Prop :=
  (∀ (x : Block) (j : Nat) (h : j < 8), (unpack64 x)[j] = x.extractLsb' (56 - 8 * j) 8) ∧
  (∀ x : Block, pack64 (unpack64 x) = x) ∧ (∀ b : Vector Byte 8, unpack64 (pack64 b) = b)

/-- R222: too small a capacity is reported before anything else is done, by the pure procedure and by the host's
statement. -/
def Obligations.CapacityErrorFirst : Prop :=
  ∀ c : Call, c.cap < paddedLength c.length →
    (∀ (pad : Nat → Byte) (m : Memory),
      transform c pad m = .next (.capacityError (paddedLength c.length) c.cap, m)) ∧
    (∀ (s : State) (ts : List Agent) (rest : List HostStmt),
      s.turns = .host :: ts → s.prog = .transform c :: rest →
      step s = .next { s with
        turns := ts, prog := rest, result := some (.capacityError (paddedLength c.length) c.cap) })

/-- Partially overlapping buffers are refused once the capacity is enough; equal and disjoint buffers are not. -/
def Obligations.PartialOverlapRefused : Prop :=
  ∀ (c : Call) (s : State) (ts : List Agent) (rest : List HostStmt), paddedLength c.length ≤ c.cap →
    s.turns = .host :: ts → s.prog = .transform c :: rest →
    ((c.out ≠ c.inp ∧ c.inp < c.out + paddedLength c.length ∧ c.out < c.inp + paddedLength c.length →
      step s = .refused .partialOverlap ∧ ∀ (pad : Nat → Byte) (m : Memory), transform c pad m = .refused .partialOverlap) ∧
    (c.out = c.inp ∨ c.out + paddedLength c.length ≤ c.inp ∨ c.inp + paddedLength c.length ≤ c.out →
      (∃ t, step s = .next t) ∧ ∀ (pad : Nat → Byte) (m : Memory), ∃ r, transform c pad m = .next r))

/-- Every output byte, for equal or disjoint buffers: block `j` of the output is the network's value of block `j` of the
input AS IT STOOD BEFORE the call, whatever the draws for missing bytes (log 8). Which bytes the caller's buffer holds is
the model's `inCap` (log 9). -/
def Obligations.TransformBlockBytes : Prop :=
  ∀ (c : Call) (pad : Nat → Byte) (m m' : Memory) (r : ProcResult),
    transform c pad m = .next (r, m') → paddedLength c.length ≤ c.cap →
    r = .returned (paddedLength c.length) ∧
    ∀ (j i : Nat) (hi : i < 8), 8 * j + 8 ≤ paddedLength c.length →
      m'.read (c.out + 8 * j + i) =
        some (unpack64 (network (keySchedule (pack64 c.key)) c.dir (inBlock c pad m (8 * j))))[i]

/-- The call writes no byte outside `out` to `out` plus the padded length, and keeps the memory's form. -/
def Obligations.TransformFrame : Prop :=
  ∀ (c : Call) (pad : Nat → Byte) (m m' : Memory) (r : ProcResult), transform c pad m = .next (r, m') →
    (m.wf → m'.wf) ∧
    ∀ a, (a < c.out ∨ c.out + paddedLength c.length ≤ a) → m'.read a = m.read a

/-- Decrypting what was encrypted gives the input bytes back, for a length that is a multiple of 8. The two calls'
buffers are proper, and the second reads what the first wrote. -/
def Obligations.TransformRoundTrip : Prop :=
  ∀ (c : Call) (dst cap2 : Nat) (pad pad' : Nat → Byte) (m m1 m2 : Memory) (r1 r2 : ProcResult),
    c.length % 8 = 0 → c.length ≤ c.cap → c.length ≤ cap2 →
    (∀ i, i < c.length → ∃ v, m.read (c.inp + i) = some v) →
    transform { c with dir := .enc } pad m = .next (r1, m1) →
    transform { c with dir := .dec, inp := c.out, out := dst, cap := cap2 } pad' m1 = .next (r2, m2) →
    ∀ i, i < c.length → m2.read (dst + i) = m.read (c.inp + i)

/-- POLL goes on where the word read matches, and stays where it does not. -/
def Obligations.PollLoops : Prop :=
  ∀ (s : State) (a : Nat) (mask value w : Word) (ts : List Agent) (rest : List HostStmt),
    s.turns = .host :: ts → s.prog = .poll a mask value :: rest → busRead a 32 s = .ok w →
    (w &&& mask = value → step s = .next { s with turns := ts, prog := rest, reads := w :: s.reads }) ∧
    (w &&& mask ≠ value → step s = .next { s with turns := ts })

/-- The expansions of the pseudo-instructions, and what CHECK does with an error flag. That a failing CHECK ends the
host's program is the model's choice (log 10). -/
def Obligations.PseudoInstructions : Prop :=
  (∀ b : Nat,
    expandPseudo b (.command .nop) = [.bus (.write b 32 0x00000000#32)] ∧
    expandPseudo b (.command .ksched) = [.bus (.write b 32 0x00000001#32)] ∧
    expandPseudo b (.command .enc) = [.bus (.write b 32 0x00000002#32)] ∧
    expandPseudo b (.command .dec) = [.bus (.write b 32 0x00000003#32)] ∧
    expandPseudo b (.command .clr) = [.bus (.write b 32 0x00000004#32)] ∧
    expandPseudo b .wait = [.poll (b + 4) 0x00000001#32 0x00000000#32] ∧
    expandPseudo b .rdout = [.bus (.read (b + 0x18) 32), .bus (.read (b + 0x1C) 32)] ∧
    (∀ v : Block,
      expandPseudo b (.ldkey v) =
        [.bus (.write (b + 8) 32 (v.extractLsb' 32 32)), .bus (.write (b + 12) 32 (v.extractLsb' 0 32))] ∧
      expandPseudo b (.lddin v) =
        [.bus (.write (b + 16) 32 (v.extractLsb' 32 32)), .bus (.write (b + 20) 32 (v.extractLsb' 0 32))])) ∧
  (∀ (s : State) (b : Nat) (w : Word) (ts : List Agent) (rest : List HostStmt),
    s.turns = .host :: ts → s.prog = expandPseudo b .check ++ rest → busRead (b + 4) 32 s = .ok w →
    (w &&& 0x00070000#32 = 0#32 → step s = .next { s with turns := ts, prog := rest, reads := w :: s.reads }) ∧
    (w &&& 0x00070000#32 ≠ 0#32 →
      step s = .next { s with turns := ts, prog := [], reads := w :: s.reads, failed := true }))

/-- TransformOnEngine computes Transform: with one instance used by nobody else, idle and with its error flags clear at
the start, any interleaving of the host's turns with engine steps that ends the host's program has the memory and the
result of the pure procedure, with no CHECK failed. That the flags are clear at the start is read from the rule's
"no error flag is set" (log 19). A run in which an instance is reset is left out: the rule leaves its output open
(log 22). -/
def Obligations.TransformOnEngineAgrees : Prop :=
  ∀ (s t : State) (k : Nat) (x : Slot) (c : Call) (m : Memory) (r : ProcResult) (ts : List Agent),
    s.PlatformOk → s.engines[k]? = some x → c.unit = x.base → c.more = [] → s.prog = [.transform c] →
    s.failed = false → x.eng.phase = .idle → x.eng.errCmd = false → x.eng.errBusy = false → x.eng.errNokey = false →
    (∀ j, Agent.reset j ∉ ts) →
    transform c (Config.padDraw s.padDraws) s.mem = .next (r, m) →
    s.runTurns ts = .next t → t.prog = [] →
    t.mem = m ∧ t.result = some r ∧ t.failed = false

/-- The same call always can finish: some interleaving ends the host's program. -/
def Obligations.TransformOnEngineFinishes : Prop :=
  ∀ (s : State) (k : Nat) (x : Slot) (c : Call) (m : Memory) (r : ProcResult),
    s.PlatformOk → s.engines[k]? = some x → c.unit = x.base → c.more = [] → s.prog = [.transform c] →
    x.eng.phase = .idle → x.eng.errCmd = false → x.eng.errBusy = false → x.eng.errNokey = false →
    transform c (Config.padDraw s.padDraws) s.mem = .next (r, m) →
    ∃ ts t, (∀ a ∈ ts, a = .host ∨ a = .engine k) ∧ s.runTurns ts = .next t ∧ t.prog = [] ∧ t.result = some r
end

