-- ==== Sys2Proof/Laws/State.lean ====
section
/-!
SUPPORT. One lemma per field per update of the state and of an engine, all true by rfl: later proofs rewrite with these
and unfold no record update.
-/

namespace Sys2Proof.Machine

/-! Updates of the state. -/

@[simp] theorem State.updAt_engines (s : State) (k : Nat) (f : Engine → Engine) : (s.updAt k f).engines = s.engines.modify k fun x => { x with eng := f x.eng } := rfl
@[simp] theorem State.updAt_sel (s : State) (k : Nat) (f : Engine → Engine) : (s.updAt k f).sel = s.sel := rfl
@[simp] theorem State.updAt_prog (s : State) (k : Nat) (f : Engine → Engine) : (s.updAt k f).prog = s.prog := rfl
@[simp] theorem State.updAt_reads (s : State) (k : Nat) (f : Engine → Engine) : (s.updAt k f).reads = s.reads := rfl
@[simp] theorem State.updAt_mem (s : State) (k : Nat) (f : Engine → Engine) : (s.updAt k f).mem = s.mem := rfl
@[simp] theorem State.updAt_result (s : State) (k : Nat) (f : Engine → Engine) : (s.updAt k f).result = s.result := rfl
@[simp] theorem State.updAt_failed (s : State) (k : Nat) (f : Engine → Engine) : (s.updAt k f).failed = s.failed := rfl
@[simp] theorem State.updAt_turns (s : State) (k : Nat) (f : Engine → Engine) : (s.updAt k f).turns = s.turns := rfl
@[simp] theorem State.updAt_turnDraws (s : State) (k : Nat) (f : Engine → Engine) : (s.updAt k f).turnDraws = s.turnDraws := rfl
@[simp] theorem State.updAt_padDraws (s : State) (k : Nat) (f : Engine → Engine) : (s.updAt k f).padDraws = s.padDraws := rfl

@[simp] theorem State.updSel_engines (s : State) (f : Engine → Engine) : (s.updSel f).engines = s.engines.modify s.sel fun x => { x with eng := f x.eng } := rfl
@[simp] theorem State.updSel_sel (s : State) (f : Engine → Engine) : (s.updSel f).sel = s.sel := rfl
@[simp] theorem State.updSel_prog (s : State) (f : Engine → Engine) : (s.updSel f).prog = s.prog := rfl
@[simp] theorem State.updSel_reads (s : State) (f : Engine → Engine) : (s.updSel f).reads = s.reads := rfl
@[simp] theorem State.updSel_mem (s : State) (f : Engine → Engine) : (s.updSel f).mem = s.mem := rfl
@[simp] theorem State.updSel_result (s : State) (f : Engine → Engine) : (s.updSel f).result = s.result := rfl
@[simp] theorem State.updSel_failed (s : State) (f : Engine → Engine) : (s.updSel f).failed = s.failed := rfl
@[simp] theorem State.updSel_turns (s : State) (f : Engine → Engine) : (s.updSel f).turns = s.turns := rfl
@[simp] theorem State.updSel_turnDraws (s : State) (f : Engine → Engine) : (s.updSel f).turnDraws = s.turnDraws := rfl
@[simp] theorem State.updSel_padDraws (s : State) (f : Engine → Engine) : (s.updSel f).padDraws = s.padDraws := rfl

@[simp] theorem State.putEngine_engines (s : State) (k : Nat) (x : Slot) (e : Engine) : (s.putEngine k x e).engines = s.engines.set k { x with eng := e } := rfl
@[simp] theorem State.putEngine_sel (s : State) (k : Nat) (x : Slot) (e : Engine) : (s.putEngine k x e).sel = s.sel := rfl
@[simp] theorem State.putEngine_prog (s : State) (k : Nat) (x : Slot) (e : Engine) : (s.putEngine k x e).prog = s.prog := rfl
@[simp] theorem State.putEngine_reads (s : State) (k : Nat) (x : Slot) (e : Engine) : (s.putEngine k x e).reads = s.reads := rfl
@[simp] theorem State.putEngine_mem (s : State) (k : Nat) (x : Slot) (e : Engine) : (s.putEngine k x e).mem = s.mem := rfl
@[simp] theorem State.putEngine_result (s : State) (k : Nat) (x : Slot) (e : Engine) : (s.putEngine k x e).result = s.result := rfl
@[simp] theorem State.putEngine_failed (s : State) (k : Nat) (x : Slot) (e : Engine) : (s.putEngine k x e).failed = s.failed := rfl
@[simp] theorem State.putEngine_turns (s : State) (k : Nat) (x : Slot) (e : Engine) : (s.putEngine k x e).turns = s.turns := rfl
@[simp] theorem State.putEngine_turnDraws (s : State) (k : Nat) (x : Slot) (e : Engine) : (s.putEngine k x e).turnDraws = s.turnDraws := rfl
@[simp] theorem State.putEngine_padDraws (s : State) (k : Nat) (x : Slot) (e : Engine) : (s.putEngine k x e).padDraws = s.padDraws := rfl

@[simp] theorem State.record_engines (s : State) (w : Word) : (s.record w).engines = s.engines := rfl
@[simp] theorem State.record_sel (s : State) (w : Word) : (s.record w).sel = s.sel := rfl
@[simp] theorem State.record_prog (s : State) (w : Word) : (s.record w).prog = s.prog := rfl
@[simp] theorem State.record_reads (s : State) (w : Word) : (s.record w).reads = w :: s.reads := rfl
@[simp] theorem State.record_mem (s : State) (w : Word) : (s.record w).mem = s.mem := rfl
@[simp] theorem State.record_result (s : State) (w : Word) : (s.record w).result = s.result := rfl
@[simp] theorem State.record_failed (s : State) (w : Word) : (s.record w).failed = s.failed := rfl
@[simp] theorem State.record_turns (s : State) (w : Word) : (s.record w).turns = s.turns := rfl
@[simp] theorem State.record_turnDraws (s : State) (w : Word) : (s.record w).turnDraws = s.turnDraws := rfl
@[simp] theorem State.record_padDraws (s : State) (w : Word) : (s.record w).padDraws = s.padDraws := rfl

@[simp] theorem State.prepend_engines (s : State) (l : List HostStmt) : (s.prepend l).engines = s.engines := rfl
@[simp] theorem State.prepend_sel (s : State) (l : List HostStmt) : (s.prepend l).sel = s.sel := rfl
@[simp] theorem State.prepend_prog (s : State) (l : List HostStmt) : (s.prepend l).prog = l ++ s.prog := rfl
@[simp] theorem State.prepend_reads (s : State) (l : List HostStmt) : (s.prepend l).reads = s.reads := rfl
@[simp] theorem State.prepend_mem (s : State) (l : List HostStmt) : (s.prepend l).mem = s.mem := rfl
@[simp] theorem State.prepend_result (s : State) (l : List HostStmt) : (s.prepend l).result = s.result := rfl
@[simp] theorem State.prepend_failed (s : State) (l : List HostStmt) : (s.prepend l).failed = s.failed := rfl
@[simp] theorem State.prepend_turns (s : State) (l : List HostStmt) : (s.prepend l).turns = s.turns := rfl
@[simp] theorem State.prepend_turnDraws (s : State) (l : List HostStmt) : (s.prepend l).turnDraws = s.turnDraws := rfl
@[simp] theorem State.prepend_padDraws (s : State) (l : List HostStmt) : (s.prepend l).padDraws = s.padDraws := rfl

/-! Taking a turn changes only the turns and the count of draws. -/

@[simp] theorem State.takeTurn_engines (s : State) : s.takeTurn.engines = s.engines := by
  unfold State.takeTurn; split <;> rfl
@[simp] theorem State.takeTurn_sel (s : State) : s.takeTurn.sel = s.sel := by
  unfold State.takeTurn; split <;> rfl
@[simp] theorem State.takeTurn_prog (s : State) : s.takeTurn.prog = s.prog := by
  unfold State.takeTurn; split <;> rfl
@[simp] theorem State.takeTurn_reads (s : State) : s.takeTurn.reads = s.reads := by
  unfold State.takeTurn; split <;> rfl
@[simp] theorem State.takeTurn_mem (s : State) : s.takeTurn.mem = s.mem := by
  unfold State.takeTurn; split <;> rfl
@[simp] theorem State.takeTurn_result (s : State) : s.takeTurn.result = s.result := by
  unfold State.takeTurn; split <;> rfl
@[simp] theorem State.takeTurn_failed (s : State) : s.takeTurn.failed = s.failed := by
  unfold State.takeTurn; split <;> rfl
@[simp] theorem State.takeTurn_padDraws (s : State) : s.takeTurn.padDraws = s.padDraws := by
  unfold State.takeTurn; split <;> rfl

@[simp] theorem State.takeTurn_of_cons (s : State) (t : Agent) (ts : List Agent) (h : s.turns = t :: ts) :
    s.takeTurn = { s with turns := ts } := by
  unfold State.takeTurn; split <;> simp_all

@[simp] theorem State.turn_of_cons (s : State) (t : Agent) (ts : List Agent) (h : s.turns = t :: ts) :
    s.turn = t := by
  unfold State.turn; split <;> simp_all

/-! Updates of an engine. -/

@[simp] theorem Engine.raise_cmd_key (e : Engine) : (e.raise .cmd).key = e.key := rfl
@[simp] theorem Engine.raise_cmd_din (e : Engine) : (e.raise .cmd).din = e.din := rfl
@[simp] theorem Engine.raise_cmd_dout (e : Engine) : (e.raise .cmd).dout = e.dout := rfl
@[simp] theorem Engine.raise_cmd_c (e : Engine) : (e.raise .cmd).c = e.c := rfl
@[simp] theorem Engine.raise_cmd_d (e : Engine) : (e.raise .cmd).d = e.d := rfl
@[simp] theorem Engine.raise_cmd_rk (e : Engine) : (e.raise .cmd).rk = e.rk := rfl
@[simp] theorem Engine.raise_cmd_l (e : Engine) : (e.raise .cmd).l = e.l := rfl
@[simp] theorem Engine.raise_cmd_r (e : Engine) : (e.raise .cmd).r = e.r := rfl
@[simp] theorem Engine.raise_cmd_dirn (e : Engine) : (e.raise .cmd).dirn = e.dirn := rfl
@[simp] theorem Engine.raise_cmd_phase (e : Engine) : (e.raise .cmd).phase = e.phase := rfl
@[simp] theorem Engine.raise_cmd_cnt (e : Engine) : (e.raise .cmd).cnt = e.cnt := rfl
@[simp] theorem Engine.raise_cmd_keyValid (e : Engine) : (e.raise .cmd).keyValid = e.keyValid := rfl
@[simp] theorem Engine.raise_cmd_done (e : Engine) : (e.raise .cmd).done = e.done := rfl
@[simp] theorem Engine.raise_cmd_errCmd (e : Engine) : (e.raise .cmd).errCmd = true := rfl
@[simp] theorem Engine.raise_cmd_errBusy (e : Engine) : (e.raise .cmd).errBusy = e.errBusy := rfl
@[simp] theorem Engine.raise_cmd_errNokey (e : Engine) : (e.raise .cmd).errNokey = e.errNokey := rfl

@[simp] theorem Engine.raise_busy_key (e : Engine) : (e.raise .busy).key = e.key := rfl
@[simp] theorem Engine.raise_busy_din (e : Engine) : (e.raise .busy).din = e.din := rfl
@[simp] theorem Engine.raise_busy_dout (e : Engine) : (e.raise .busy).dout = e.dout := rfl
@[simp] theorem Engine.raise_busy_c (e : Engine) : (e.raise .busy).c = e.c := rfl
@[simp] theorem Engine.raise_busy_d (e : Engine) : (e.raise .busy).d = e.d := rfl
@[simp] theorem Engine.raise_busy_rk (e : Engine) : (e.raise .busy).rk = e.rk := rfl
@[simp] theorem Engine.raise_busy_l (e : Engine) : (e.raise .busy).l = e.l := rfl
@[simp] theorem Engine.raise_busy_r (e : Engine) : (e.raise .busy).r = e.r := rfl
@[simp] theorem Engine.raise_busy_dirn (e : Engine) : (e.raise .busy).dirn = e.dirn := rfl
@[simp] theorem Engine.raise_busy_phase (e : Engine) : (e.raise .busy).phase = e.phase := rfl
@[simp] theorem Engine.raise_busy_cnt (e : Engine) : (e.raise .busy).cnt = e.cnt := rfl
@[simp] theorem Engine.raise_busy_keyValid (e : Engine) : (e.raise .busy).keyValid = e.keyValid := rfl
@[simp] theorem Engine.raise_busy_done (e : Engine) : (e.raise .busy).done = e.done := rfl
@[simp] theorem Engine.raise_busy_errCmd (e : Engine) : (e.raise .busy).errCmd = e.errCmd := rfl
@[simp] theorem Engine.raise_busy_errBusy (e : Engine) : (e.raise .busy).errBusy = true := rfl
@[simp] theorem Engine.raise_busy_errNokey (e : Engine) : (e.raise .busy).errNokey = e.errNokey := rfl

@[simp] theorem Engine.raise_nokey_key (e : Engine) : (e.raise .nokey).key = e.key := rfl
@[simp] theorem Engine.raise_nokey_din (e : Engine) : (e.raise .nokey).din = e.din := rfl
@[simp] theorem Engine.raise_nokey_dout (e : Engine) : (e.raise .nokey).dout = e.dout := rfl
@[simp] theorem Engine.raise_nokey_c (e : Engine) : (e.raise .nokey).c = e.c := rfl
@[simp] theorem Engine.raise_nokey_d (e : Engine) : (e.raise .nokey).d = e.d := rfl
@[simp] theorem Engine.raise_nokey_rk (e : Engine) : (e.raise .nokey).rk = e.rk := rfl
@[simp] theorem Engine.raise_nokey_l (e : Engine) : (e.raise .nokey).l = e.l := rfl
@[simp] theorem Engine.raise_nokey_r (e : Engine) : (e.raise .nokey).r = e.r := rfl
@[simp] theorem Engine.raise_nokey_dirn (e : Engine) : (e.raise .nokey).dirn = e.dirn := rfl
@[simp] theorem Engine.raise_nokey_phase (e : Engine) : (e.raise .nokey).phase = e.phase := rfl
@[simp] theorem Engine.raise_nokey_cnt (e : Engine) : (e.raise .nokey).cnt = e.cnt := rfl
@[simp] theorem Engine.raise_nokey_keyValid (e : Engine) : (e.raise .nokey).keyValid = e.keyValid := rfl
@[simp] theorem Engine.raise_nokey_done (e : Engine) : (e.raise .nokey).done = e.done := rfl
@[simp] theorem Engine.raise_nokey_errCmd (e : Engine) : (e.raise .nokey).errCmd = e.errCmd := rfl
@[simp] theorem Engine.raise_nokey_errBusy (e : Engine) : (e.raise .nokey).errBusy = e.errBusy := rfl
@[simp] theorem Engine.raise_nokey_errNokey (e : Engine) : (e.raise .nokey).errNokey = true := rfl

@[simp] theorem Engine.acknowledge_key (e : Engine) : (e.acknowledge).key = e.key := rfl
@[simp] theorem Engine.acknowledge_din (e : Engine) : (e.acknowledge).din = e.din := rfl
@[simp] theorem Engine.acknowledge_dout (e : Engine) : (e.acknowledge).dout = e.dout := rfl
@[simp] theorem Engine.acknowledge_c (e : Engine) : (e.acknowledge).c = e.c := rfl
@[simp] theorem Engine.acknowledge_d (e : Engine) : (e.acknowledge).d = e.d := rfl
@[simp] theorem Engine.acknowledge_rk (e : Engine) : (e.acknowledge).rk = e.rk := rfl
@[simp] theorem Engine.acknowledge_l (e : Engine) : (e.acknowledge).l = e.l := rfl
@[simp] theorem Engine.acknowledge_r (e : Engine) : (e.acknowledge).r = e.r := rfl
@[simp] theorem Engine.acknowledge_dirn (e : Engine) : (e.acknowledge).dirn = e.dirn := rfl
@[simp] theorem Engine.acknowledge_phase (e : Engine) : (e.acknowledge).phase = e.phase := rfl
@[simp] theorem Engine.acknowledge_cnt (e : Engine) : (e.acknowledge).cnt = e.cnt := rfl
@[simp] theorem Engine.acknowledge_keyValid (e : Engine) : (e.acknowledge).keyValid = e.keyValid := rfl
@[simp] theorem Engine.acknowledge_done (e : Engine) : (e.acknowledge).done = false := rfl
@[simp] theorem Engine.acknowledge_errCmd (e : Engine) : (e.acknowledge).errCmd = false := rfl
@[simp] theorem Engine.acknowledge_errBusy (e : Engine) : (e.acknowledge).errBusy = false := rfl
@[simp] theorem Engine.acknowledge_errNokey (e : Engine) : (e.acknowledge).errNokey = false := rfl

@[simp] theorem kschedAccept_key (e : Engine) : (kschedAccept e).key = e.key := rfl
@[simp] theorem kschedAccept_din (e : Engine) : (kschedAccept e).din = e.din := rfl
@[simp] theorem kschedAccept_dout (e : Engine) : (kschedAccept e).dout = e.dout := rfl
@[simp] theorem kschedAccept_c (e : Engine) : (kschedAccept e).c = (keyHalves e.key).1 := rfl
@[simp] theorem kschedAccept_d (e : Engine) : (kschedAccept e).d = (keyHalves e.key).2 := rfl
@[simp] theorem kschedAccept_rk (e : Engine) : (kschedAccept e).rk = e.rk := rfl
@[simp] theorem kschedAccept_l (e : Engine) : (kschedAccept e).l = e.l := rfl
@[simp] theorem kschedAccept_r (e : Engine) : (kschedAccept e).r = e.r := rfl
@[simp] theorem kschedAccept_dirn (e : Engine) : (kschedAccept e).dirn = e.dirn := rfl
@[simp] theorem kschedAccept_phase (e : Engine) : (kschedAccept e).phase = .ksched := rfl
@[simp] theorem kschedAccept_cnt (e : Engine) : (kschedAccept e).cnt = 0x0#4 := rfl
@[simp] theorem kschedAccept_keyValid (e : Engine) : (kschedAccept e).keyValid = false := rfl
@[simp] theorem kschedAccept_done (e : Engine) : (kschedAccept e).done = e.done := rfl
@[simp] theorem kschedAccept_errCmd (e : Engine) : (kschedAccept e).errCmd = e.errCmd := rfl
@[simp] theorem kschedAccept_errBusy (e : Engine) : (kschedAccept e).errBusy = e.errBusy := rfl
@[simp] theorem kschedAccept_errNokey (e : Engine) : (kschedAccept e).errNokey = e.errNokey := rfl

@[simp] theorem kschedComplete_key (e : Engine) : (kschedComplete e).key = e.key := rfl
@[simp] theorem kschedComplete_din (e : Engine) : (kschedComplete e).din = e.din := rfl
@[simp] theorem kschedComplete_dout (e : Engine) : (kschedComplete e).dout = e.dout := rfl
@[simp] theorem kschedComplete_c (e : Engine) : (kschedComplete e).c = e.c := rfl
@[simp] theorem kschedComplete_d (e : Engine) : (kschedComplete e).d = e.d := rfl
@[simp] theorem kschedComplete_rk (e : Engine) : (kschedComplete e).rk = e.rk := rfl
@[simp] theorem kschedComplete_l (e : Engine) : (kschedComplete e).l = e.l := rfl
@[simp] theorem kschedComplete_r (e : Engine) : (kschedComplete e).r = e.r := rfl
@[simp] theorem kschedComplete_dirn (e : Engine) : (kschedComplete e).dirn = e.dirn := rfl
@[simp] theorem kschedComplete_phase (e : Engine) : (kschedComplete e).phase = .idle := rfl
@[simp] theorem kschedComplete_cnt (e : Engine) : (kschedComplete e).cnt = 0x0#4 := rfl
@[simp] theorem kschedComplete_keyValid (e : Engine) : (kschedComplete e).keyValid = true := rfl
@[simp] theorem kschedComplete_done (e : Engine) : (kschedComplete e).done = e.done := rfl
@[simp] theorem kschedComplete_errCmd (e : Engine) : (kschedComplete e).errCmd = e.errCmd := rfl
@[simp] theorem kschedComplete_errBusy (e : Engine) : (kschedComplete e).errBusy = e.errBusy := rfl
@[simp] theorem kschedComplete_errNokey (e : Engine) : (kschedComplete e).errNokey = e.errNokey := rfl

@[simp] theorem blockAccept_key (dir : Dir) (e : Engine) : (blockAccept dir e).key = e.key := rfl
@[simp] theorem blockAccept_din (dir : Dir) (e : Engine) : (blockAccept dir e).din = e.din := rfl
@[simp] theorem blockAccept_dout (dir : Dir) (e : Engine) : (blockAccept dir e).dout = e.dout := rfl
@[simp] theorem blockAccept_c (dir : Dir) (e : Engine) : (blockAccept dir e).c = e.c := rfl
@[simp] theorem blockAccept_d (dir : Dir) (e : Engine) : (blockAccept dir e).d = e.d := rfl
@[simp] theorem blockAccept_rk (dir : Dir) (e : Engine) : (blockAccept dir e).rk = e.rk := rfl
@[simp] theorem blockAccept_l (dir : Dir) (e : Engine) : (blockAccept dir e).l = (blockHalves e.din).1 := rfl
@[simp] theorem blockAccept_r (dir : Dir) (e : Engine) : (blockAccept dir e).r = (blockHalves e.din).2 := rfl
@[simp] theorem blockAccept_dirn (dir : Dir) (e : Engine) : (blockAccept dir e).dirn = dir := rfl
@[simp] theorem blockAccept_phase (dir : Dir) (e : Engine) : (blockAccept dir e).phase = .block := rfl
@[simp] theorem blockAccept_cnt (dir : Dir) (e : Engine) : (blockAccept dir e).cnt = 0x0#4 := rfl
@[simp] theorem blockAccept_keyValid (dir : Dir) (e : Engine) : (blockAccept dir e).keyValid = e.keyValid := rfl
@[simp] theorem blockAccept_done (dir : Dir) (e : Engine) : (blockAccept dir e).done = false := rfl
@[simp] theorem blockAccept_errCmd (dir : Dir) (e : Engine) : (blockAccept dir e).errCmd = e.errCmd := rfl
@[simp] theorem blockAccept_errBusy (dir : Dir) (e : Engine) : (blockAccept dir e).errBusy = e.errBusy := rfl
@[simp] theorem blockAccept_errNokey (dir : Dir) (e : Engine) : (blockAccept dir e).errNokey = e.errNokey := rfl

@[simp] theorem blockComplete_key (e : Engine) : (blockComplete e).key = e.key := rfl
@[simp] theorem blockComplete_din (e : Engine) : (blockComplete e).din = e.din := rfl
@[simp] theorem blockComplete_dout (e : Engine) : (blockComplete e).dout = blockOutput (e.l, e.r) := rfl
@[simp] theorem blockComplete_c (e : Engine) : (blockComplete e).c = e.c := rfl
@[simp] theorem blockComplete_d (e : Engine) : (blockComplete e).d = e.d := rfl
@[simp] theorem blockComplete_rk (e : Engine) : (blockComplete e).rk = e.rk := rfl
@[simp] theorem blockComplete_l (e : Engine) : (blockComplete e).l = e.l := rfl
@[simp] theorem blockComplete_r (e : Engine) : (blockComplete e).r = e.r := rfl
@[simp] theorem blockComplete_dirn (e : Engine) : (blockComplete e).dirn = e.dirn := rfl
@[simp] theorem blockComplete_phase (e : Engine) : (blockComplete e).phase = .idle := rfl
@[simp] theorem blockComplete_cnt (e : Engine) : (blockComplete e).cnt = 0x0#4 := rfl
@[simp] theorem blockComplete_keyValid (e : Engine) : (blockComplete e).keyValid = e.keyValid := rfl
@[simp] theorem blockComplete_done (e : Engine) : (blockComplete e).done = true := rfl
@[simp] theorem blockComplete_errCmd (e : Engine) : (blockComplete e).errCmd = e.errCmd := rfl
@[simp] theorem blockComplete_errBusy (e : Engine) : (blockComplete e).errBusy = e.errBusy := rfl
@[simp] theorem blockComplete_errNokey (e : Engine) : (blockComplete e).errNokey = e.errNokey := rfl

end Sys2Proof.Machine
end

