-- ==== Sys2Proof/Laws/Ops.lean ====
section
/-!
SUPPORT. What the shared operations over the instances do: changing one engine, finding the window of an address, and
the gate a command passes.
-/

namespace Sys2Proof.Machine

/-! Changing one engine. -/

theorem State.engineAt_of_slot {s : State} {k : Nat} {x : Slot} (h : s.engines[k]? = some x) :
    s.engineAt k = some x.eng := by
  simp [State.engineAt, h]

theorem State.slot_of_engineAt {s : State} {k : Nat} {e : Engine} (h : s.engineAt k = some e) :
    ∃ x, s.engines[k]? = some x ∧ x.eng = e := by
  simpa [State.engineAt] using h

theorem State.engineAt_updAt (s : State) (k j : Nat) (f : Engine → Engine) :
    (s.updAt k f).engineAt j = if k = j then (s.engineAt j).map f else s.engineAt j := by
  simp only [State.engineAt, State.updAt_engines, List.getElem?_modify]
  cases s.engines[j]? <;> by_cases h : k = j <;> simp [h]

/-- Changing the engine of an instance is putting the changed engine back; nothing else changes. -/
theorem State.updAt_eq_putEngine {s : State} {k : Nat} {x : Slot} (h : s.engines[k]? = some x)
    (f : Engine → Engine) : s.updAt k f = s.putEngine k x (f x.eng) := by
  have hl : s.engines.modify k (fun y => { y with eng := f y.eng }) = s.engines.set k { x with eng := f x.eng } := by
    apply List.ext_getElem?
    intro j
    rw [List.getElem?_modify, List.getElem?_set]
    by_cases hj : k = j
    · subst hj
      obtain ⟨hk, hx⟩ := List.getElem?_eq_some_iff.1 h
      simp [hk, hx]
    · simp [hj]
  simp [State.updAt, State.putEngine, hl]

theorem State.updSel_eq_putEngine {s : State} {x : Slot} (h : s.engines[s.sel]? = some x)
    (f : Engine → Engine) : s.updSel f = s.putEngine s.sel x (f x.eng) :=
  State.updAt_eq_putEngine h f

theorem State.engineAt_putEngine_same {s : State} {k : Nat} {x : Slot} (h : s.engines[k]? = some x) (e : Engine) :
    (s.putEngine k x e).engineAt k = some e := by
  have hk : k < s.engines.length := (List.getElem?_eq_some_iff.1 h).1
  simp [State.engineAt, State.putEngine, hk]

theorem State.engineAt_putEngine_other (s : State) {k j : Nat} (x : Slot) (e : Engine) (h : k ≠ j) :
    (s.putEngine k x e).engineAt j = s.engineAt j := by
  simp [State.engineAt, State.putEngine, List.getElem?_set_ne h]

@[simp] theorem State.updAt_length (s : State) (k : Nat) (f : Engine → Engine) :
    (s.updAt k f).engines.length = s.engines.length := by
  simp

/-- No change of an engine moves a window. -/
@[simp] theorem State.updAt_bases (s : State) (k : Nat) (f : Engine → Engine) :
    (s.updAt k f).engines.map Slot.base = s.engines.map Slot.base := by
  apply List.ext_getElem?
  intro j
  simp only [List.getElem?_map, State.updAt_engines, List.getElem?_modify]
  cases s.engines[j]? <;> by_cases h : k = j <;> simp [h]

theorem State.updAt_id (s : State) (k : Nat) : (s.updAt k fun e => e) = s := by
  have h : s.engines.modify k (fun x => { x with eng := x.eng }) = s.engines := List.modify_id ..
  show { s with engines := _ } = s
  rw [h]

/-- A property of every engine is kept by a change that keeps it. -/
theorem State.forall_updAt {P : Engine → Prop} (s : State) (k : Nat) (f : Engine → Engine)
    (hf : ∀ e, P e → P (f e)) (h : ∀ x ∈ s.engines, P x.eng) : ∀ x ∈ (s.updAt k f).engines, P x.eng := by
  intro y hy
  obtain ⟨j, hj⟩ := List.getElem?_of_mem hy
  rw [State.updAt_engines, List.getElem?_modify] at hj
  cases hz : s.engines[j]? with
  | none => simp [hz] at hj
  | some z =>
    have hP := h z (List.mem_of_getElem? hz)
    by_cases hk : k = j
    · simp only [hz, hk, ↓reduceIte] at hj
      cases hj
      exact hf _ hP
    · simp only [hz, hk, ↓reduceIte] at hj
      cases hj
      exact hP

/-! Windows. -/

/-- A found window is one the address lies in. -/
theorem findWindow_some {l : List Slot} {a k off : Nat} (h : findWindow l a = some (k, off)) :
    ∃ x, l[k]? = some x ∧ a = x.base + off ∧ off < windowSize := by
  induction l generalizing k with
  | nil => simp [findWindow] at h
  | cons y l ih =>
    simp only [findWindow] at h
    split at h
    · next hy =>
      simp only [Option.some.injEq, Prod.mk.injEq] at h
      obtain ⟨rfl, rfl⟩ := h
      exact ⟨y, rfl, by omega, by omega⟩
    · simp only [Option.map_eq_some_iff, Prod.mk.injEq] at h
      obtain ⟨⟨k', off'⟩, hf, rfl, rfl⟩ := h
      obtain ⟨x, hx, hax, hlt⟩ := ih hf
      exact ⟨x, by simpa using hx, hax, hlt⟩

/-- On a proper platform every address of a window is found there. -/
theorem findWindow_of_slot {l : List Slot} {k off : Nat} {x : Slot} (hx : l[k]? = some x) (hoff : off < windowSize)
    (hb : ∀ y ∈ l, y.base % 64 = 0) (hd : l.Pairwise (fun y z => y.base ≠ z.base)) :
    findWindow l (x.base + off) = some (k, off) := by
  induction l generalizing k with
  | nil => simp at hx
  | cons y l ih =>
    have hd' := List.pairwise_cons.1 hd
    cases k with
    | zero =>
      simp only [List.getElem?_cons_zero, Option.some.injEq] at hx
      subst hx
      rw [findWindow, if_pos ⟨Nat.le_add_right .., by omega⟩, Nat.add_sub_cancel_left]
    | succ k =>
      simp only [List.getElem?_cons_succ] at hx
      have hmem := List.mem_of_getElem? hx
      have h1 := hd'.1 x hmem
      have h2 := hb y (List.mem_cons_self ..)
      have h3 := hb x (List.mem_cons_of_mem _ hmem)
      have hw : windowSize = 64 := rfl
      rw [findWindow, if_neg (by omega), ih hx (fun z hz => hb z (List.mem_cons_of_mem _ hz)) hd'.2]
      rfl

/-- Windows are found by base alone. -/
theorem findWindow_congr {l l' : List Slot} (h : l.map Slot.base = l'.map Slot.base) (a : Nat) :
    findWindow l a = findWindow l' a := by
  induction l generalizing l' with
  | nil =>
    cases l' with
    | nil => rfl
    | cons y l' => simp at h
  | cons x l ih =>
    cases l' with
    | nil => simp at h
    | cons y l' =>
      simp only [List.map_cons, List.cons.injEq] at h
      simp only [findWindow, h.1, ih h.2]

/-- A permitted access is resolved to a register of an existing instance (`20_memory.md` R52). -/
theorem State.resolve_ok {s : State} {a w k off : Nat} (h : s.resolve a w = .ok (k, off)) :
    w = 32 ∧ off % 4 = 0 ∧ off < windowSize ∧ ∃ x, s.engines[k]? = some x ∧ a = x.base + off := by
  unfold State.resolve at h
  split at h
  · simp at h
  · next k' off' hf =>
    split at h
    · simp at h
    · simp only [Except.ok.injEq, Prod.mk.injEq] at h
      obtain ⟨rfl, rfl⟩ := h
      obtain ⟨x, hx, ha, hlt⟩ := findWindow_some hf
      refine ⟨by omega, by omega, hlt, x, hx, ha⟩

theorem State.resolve_of_slot {s : State} {k off w : Nat} {x : Slot} (hp : s.PlatformOk)
    (hx : s.engines[k]? = some x) (hoff : off < 64) :
    s.resolve (x.base + off) w = if w ≠ 32 ∨ off % 4 ≠ 0 then .error (.busError off) else .ok (k, off) := by
  simp [State.resolve, findWindow_of_slot hx hoff hp.2.1 hp.2.2]

theorem State.ctrlAddr_of_slot {s : State} {x : Slot} (h : s.engines[s.sel]? = some x) : s.ctrlAddr = x.base := by
  simp [State.ctrlAddr, h, regAddr, regOffset]

/-! The gate of a command (`44_control_commands.md` R200). -/

theorem busy_iff (e : Engine) : e.busy = true ↔ e.phase ≠ .idle := by
  cases h : e.phase <;> simp [Engine.busy, h]

theorem commandGate_busy {e : Engine} (needsKey : Bool) (accept : Engine → Engine) (h : e.phase ≠ .idle) :
    commandGate needsKey accept e = e.raise .busy := by
  simp [commandGate, (busy_iff e).2 h]

theorem commandGate_nokey {e : Engine} (accept : Engine → Engine) (h : e.phase = .idle) (hk : e.keyValid = false) :
    commandGate true accept e = e.raise .nokey := by
  simp [commandGate, Engine.busy, h, hk]

theorem commandGate_accept {e : Engine} (needsKey : Bool) (accept : Engine → Engine) (h : e.phase = .idle)
    (hk : needsKey = true → e.keyValid = true) : commandGate needsKey accept e = accept e := by
  cases needsKey <;> simp_all [commandGate, Engine.busy]

/-- A command is rejected with one flag, or accepted. -/
theorem commandGate_cases (needsKey : Bool) (accept : Engine → Engine) (e : Engine) :
    (e.phase ≠ .idle ∧ commandGate needsKey accept e = e.raise .busy) ∨
    (e.phase = .idle ∧ needsKey = true ∧ e.keyValid = false ∧ commandGate needsKey accept e = e.raise .nokey) ∨
    (e.phase = .idle ∧ (needsKey = true → e.keyValid = true) ∧ commandGate needsKey accept e = accept e) := by
  by_cases h : e.phase = .idle
  · cases hn : needsKey <;> cases hk : e.keyValid <;> simp [commandGate, Engine.busy, h, hk]
  · exact .inl ⟨h, commandGate_busy _ _ h⟩

end Sys2Proof.Machine
end

