-- ==== Sys2Proof/Laws/Commands.lean ====
section
/-!
SUPPORT. Every meaning, the dispatch and every host write as ONE change of one engine: later proofs about what a host
access can do go through `commandEffect`, `dispatchEffect` and `writeEffect`.
-/

namespace Sys2Proof.Machine

/-- What a command does to the engine it is written to. -/
def commandEffect : Instr → Engine → Engine
  | .nop => fun e => e
  | .ksched => commandGate false kschedAccept
  | .enc => commandGate true (blockAccept .enc)
  | .dec => commandGate true (blockAccept .dec)
  | .clr => commandGate false Engine.acknowledge

/-- Every command completes: it changes the engine it is written to by its effect, and nothing else. -/
theorem exec_eq (i : Instr) (s : State) : exec i s = .next (s.updSel (commandEffect i)) := by
  cases i with
  | nop => exact congrArg Host.Outcome.next (State.updAt_id s s.sel).symm
  | ksched => rfl
  | enc => rfl
  | dec => rfl
  | clr => rfl

/-- What a CTRL write does to the engine (`44_control_commands.md` R200). -/
def dispatchEffect (w : Word) : Engine → Engine :=
  match decode w with
  | .cmd i => commandEffect i
  | .reserved _ => Engine.raise .cmd

theorem dispatch_eq (w : Word) (s : State) : dispatch w s = .next (s.updSel (dispatchEffect w)) := by
  unfold dispatch dispatchEffect
  cases decode w with
  | cmd i => exact exec_eq i s
  | reserved w' => rfl

/-- What a host write at an offset does to the engine (`20_memory.md` R54). -/
def writeEffect (off : Nat) (v : Word) : Engine → Engine :=
  if off = 0x00 then dispatchEffect v else writeReg off v

theorem busWrite_ok {s : State} {a w k off : Nat} (v : Word) (h : s.resolve a w = .ok (k, off)) :
    busWrite a w v s = .next ({ s with sel := k }.updSel (writeEffect off v)) := by
  simp only [busWrite, h]
  unfold writeEffect
  split
  · exact dispatch_eq ..
  · rfl

theorem busWrite_error {s : State} {a w : Nat} {f : Fault} (v : Word) (h : s.resolve a w = .error f) :
    busWrite a w v s = .fault f := by
  simp [busWrite, h]

theorem busRead_ok {s : State} {a w k off : Nat} {x : Slot} (h : s.resolve a w = .ok (k, off))
    (hx : s.engines[k]? = some x) : busRead a w s = .ok (readReg off x.eng) := by
  simp [busRead, h, State.engineAt_of_slot hx]

theorem busRead_error {s : State} {a w : Nat} {f : Fault} (h : s.resolve a w = .error f) :
    busRead a w s = .error f := by
  simp [busRead, h]

/-- A host write that goes through: which instance it changes, and how. -/
theorem busWrite_next {s t : State} {a w : Nat} {v : Word} (h : busWrite a w v s = .next t) :
    ∃ k off x, w = 32 ∧ off % 4 = 0 ∧ off < windowSize ∧ s.engines[k]? = some x ∧ a = x.base + off ∧
      t = ({ s with sel := k } : State).updAt k (writeEffect off v) := by
  cases hr : s.resolve a w with
  | error f => simp [busWrite_error v hr] at h
  | ok p =>
    obtain ⟨k, off⟩ := p
    obtain ⟨hw, h4, hlt, x, hx, ha⟩ := State.resolve_ok hr
    rw [busWrite_ok v hr] at h
    exact ⟨k, off, x, hw, h4, hlt, hx, ha, (Host.Outcome.next.inj h).symm⟩

/-- The word of a command dispatches to that command. -/
theorem dispatchEffect_encode (i : Instr) : dispatchEffect (encode i) = commandEffect i := by
  cases i <;> rfl

end Sys2Proof.Machine
end

