-- ==== Sys2Proof/Laws/Datapath.lean ====
section
/-!
SUPPORT. The fold that Permute is written with, read bit by bit, the round-key store by entries, and the halves and
rounds one at a time.
-/

namespace Sys2Proof.Machine

/-- Reading a list of bits, the first the most significant, after a value already read: bit `i` of the result is bit
`i` from the end of the list, or a bit of the value. -/
theorem foldl_bits_testBit (f : Nat → Bool) (l : List Nat) (acc i : Nat) :
    (l.foldl (fun a p => 2 * a + (f p).toNat) acc).testBit i =
      if h : i < l.length then f (l[l.length - 1 - i]) else acc.testBit (i - l.length) := by
  induction l generalizing acc with
  | nil => simp
  | cons p l ih =>
    rw [List.foldl_cons, ih]
    simp only [List.length_cons]
    by_cases h : i < l.length
    · have h' : i < l.length + 1 := by omega
      rw [dif_pos h, dif_pos h']
      congr 1
      have : l.length + 1 - 1 - i = (l.length - 1 - i) + 1 := by omega
      simp only [this, List.getElem_cons_succ]
    · rw [dif_neg h]
      by_cases h2 : i = l.length
      · subst h2
        simp only [Nat.sub_self, Nat.lt_add_one, ↓reduceDIte, Nat.add_sub_cancel, List.getElem_cons_zero]
        rw [Nat.testBit_zero]
        cases f p <;> simp [Nat.add_mod]
      · rw [dif_neg (by omega)]
        obtain ⟨d, hd⟩ : ∃ d, i - l.length = d + 1 := ⟨i - l.length - 1, by omega⟩
        rw [hd, Nat.testBit_succ, show i - (l.length + 1) = d by omega]
        congr 1
        cases f p <;> simp [Nat.add_div]

/-! The two words of a 64-bit value. -/

@[simp] theorem hiHalf_append (a b : Word) : hiHalf (a ++ b : Block) = a := by
  unfold hiHalf
  ext i hi
  rw [BitVec.getElem_extractLsb']
  refine (BitVec.getLsbD_append (x := a) (y := b) (i := 32 + i)).trans ?_
  simp [hi]

@[simp] theorem loHalf_append (a b : Word) : loHalf (a ++ b : Block) = b := by
  unfold loHalf
  ext i hi
  rw [BitVec.getElem_extractLsb']
  refine (BitVec.getLsbD_append (x := a) (y := b) (i := 0 + i)).trans ?_
  simp [hi]

@[simp] theorem hiHalf_append_loHalf (v : Block) : (hiHalf v ++ loHalf v : Block) = v := by
  unfold hiHalf loHalf
  apply BitVec.eq_of_getLsbD_eq
  intro i hi
  refine (BitVec.getLsbD_append (x := v.extractLsb' 32 32) (y := v.extractLsb' 0 32) (i := i)).trans ?_
  by_cases h : i < 32
  · simp [h]
  · have h' : i - 32 < 32 := by omega
    simp [h, h']
    congr 1
    omega

/-- Entry `i` of a store, for an index in range. -/
theorem rkEntry_of_lt (rk : Vector RoundKey 16) (i : Nat) (h : i < 16) : rkEntry rk i = rk[i] := by
  simp [rkEntry, h]

theorem rkEntry_set (rk : Vector RoundKey 16) (j : Nat) (hj : j < 16) (k : RoundKey) (i : Nat) :
    rkEntry (rk.set j k) i = if i = j then k else rkEntry rk i := by
  unfold rkEntry
  by_cases h : i < 16
  · simp only [h, ↓reduceDIte, Vector.getElem_set]
    by_cases hij : j = i <;> simp [hij, eq_comm]
  · have : i ≠ j := by omega
    simp [h, this]

/-- Two stores with the same sixteen entries are equal. -/
theorem rk_ext {rk rk' : Vector RoundKey 16} (h : ∀ i, i < 16 → rkEntry rk i = rkEntry rk' i) : rk = rk' := by
  apply Vector.ext
  intro i hi
  simpa [rkEntry, hi] using h i hi

theorem rkEntry_keySchedule (key : Block) (i : Nat) (h : i < 16) : rkEntry (keySchedule key) i = roundKey key i := by
  simp [rkEntry, h, keySchedule]

theorem halvesAfter_succ (cd : KeyHalf × KeyHalf) (n : Nat) :
    halvesAfter cd (n + 1) = rotateHalves n (halvesAfter cd n) := rfl

theorem roundsFrom_succ (rk : Vector RoundKey 16) (dir : Dir) (lr : Half × Half) (n : Nat) :
    roundsFrom rk dir lr (n + 1) = feistelRound (roundsFrom rk dir lr n) (keyFor rk dir n) := rfl

end Sys2Proof.Machine
end

