-- ==== Sys2Proof/Laws/Memory.lean ====
section
/-!
SUPPORT. The host's memory: every write keeps the canonical form, a read after a write gives the value written, and
every other address reads as before.
-/

namespace Sys2Proof.Machine

theorem Memory.read_write_same (m : Memory) (a : Nat) (v : Byte) : (m.write a v).read a = some v := by
  induction m with
  | nil => simp [Memory.write, Memory.read]
  | cons x m ih =>
    obtain ⟨b, w⟩ := x
    simp only [Memory.write]
    split
    · simp [Memory.read]
    · split
      · simp [Memory.read]
      · simp only [Memory.read]
        rw [if_neg (by omega)]
        exact ih

theorem Memory.read_write_other (m : Memory) (a b : Nat) (v : Byte) (h : b ≠ a) : (m.write a v).read b = m.read b := by
  induction m with
  | nil => simp [Memory.write, Memory.read, h.symm]
  | cons x m ih =>
    obtain ⟨c, w⟩ := x
    simp only [Memory.write]
    split
    · simp [Memory.read, h.symm]
    · split
      · next hac => subst hac; simp [Memory.read, h.symm]
      · simp only [Memory.read, ih]

theorem Memory.mem_write_address (m : Memory) (a : Nat) (v : Byte) :
    ∀ x ∈ m.write a v, x.1 = a ∨ x ∈ m := by
  induction m with
  | nil => simp [Memory.write]
  | cons y m ih =>
    obtain ⟨b, w⟩ := y
    intro x hx
    simp only [Memory.write] at hx
    split at hx
    · rcases List.mem_cons.1 hx with rfl | hx
      · exact .inl rfl
      · exact .inr hx
    · split at hx
      · rcases List.mem_cons.1 hx with rfl | hx
        · exact .inl rfl
        · exact .inr (List.mem_cons_of_mem _ hx)
      · rcases List.mem_cons.1 hx with rfl | hx
        · exact .inr (List.mem_cons_self ..)
        · exact (ih x hx).imp id (List.mem_cons_of_mem _)

theorem Memory.write_wf (m : Memory) (a : Nat) (v : Byte) (h : m.wf) : (m.write a v).wf := by
  induction m with
  | nil => exact List.pairwise_singleton ..
  | cons x m ih =>
    obtain ⟨b, w⟩ := x
    have hb := (List.pairwise_cons.1 h).1
    have hm := (List.pairwise_cons.1 h).2
    simp only [Memory.write]
    split
    · next hab =>
      refine List.pairwise_cons.2 ⟨fun y hy => ?_, h⟩
      rcases List.mem_cons.1 hy with rfl | hy
      · exact hab
      · exact hab.trans (hb y hy)
    · split
      · next hab => subst hab; exact List.pairwise_cons.2 ⟨hb, hm⟩
      · refine List.pairwise_cons.2 ⟨fun y hy => ?_, ih hm⟩
        rcases Memory.mem_write_address m a v y hy with h1 | h1
        · show b < y.1
          omega
        · exact hb y h1

theorem Memory.writeBytes_wf (l : List Byte) (m : Memory) (a : Nat) (h : m.wf) : (m.writeBytes a l).wf := by
  induction l generalizing m a with
  | nil => exact h
  | cons v l ih => exact ih _ _ (m.write_wf a v h)

/-- Every address outside the stored bytes reads as before. -/
theorem Memory.read_writeBytes_outside (l : List Byte) (m : Memory) (a b : Nat) (h : b < a ∨ a + l.length ≤ b) :
    (m.writeBytes a l).read b = m.read b := by
  induction l generalizing m a with
  | nil => rfl
  | cons v l ih =>
    simp only [List.length_cons] at h
    rw [Memory.writeBytes, ih _ _ (by omega), Memory.read_write_other _ _ _ _ (by omega)]

/-- Every stored byte reads back. -/
theorem Memory.read_writeBytes_inside (l : List Byte) (m : Memory) (a i : Nat) (h : i < l.length) :
    (m.writeBytes a l).read (a + i) = some l[i] := by
  induction l generalizing m a i with
  | nil => simp at h
  | cons v l ih =>
    cases i with
    | zero =>
      rw [Memory.writeBytes, Memory.read_writeBytes_outside _ _ _ _ (by omega), Nat.add_zero,
        Memory.read_write_same]
      rfl
    | succ i =>
      have h' : i < l.length := by simpa using h
      rw [Memory.writeBytes, show a + (i + 1) = a + 1 + i by omega, ih _ _ i h']
      rfl

theorem storeBlock_wf (m : Memory) (a : Nat) (v : Block) (h : m.wf) : (storeBlock m a v).wf :=
  Memory.writeBytes_wf _ _ _ h

/-- MemWrite of a block changes only its eight bytes. -/
theorem read_storeBlock_outside (m : Memory) (a b : Nat) (v : Block) (h : b < a ∨ a + 8 ≤ b) :
    (storeBlock m a v).read b = m.read b :=
  Memory.read_writeBytes_outside _ _ _ _ (by simpa using h)

/-- MemWrite of a block stores byte `i` of `Unpack64` at `a + i`. -/
theorem read_storeBlock_inside (m : Memory) (a i : Nat) (v : Block) (h : i < 8) :
    (storeBlock m a v).read (a + i) = some (unpack64 v)[i] := by
  rw [storeBlock, Memory.read_writeBytes_inside _ _ _ _ (by simpa using h)]
  simp

theorem transformBlocks_wf (c : Call) (rk : Vector RoundKey 16) (pad : Nat → Byte) (m : Memory) (h : m.wf) (n : Nat) :
    (transformBlocks c rk pad m n).wf := by
  induction n with
  | zero => exact h
  | succ n ih => exact storeBlock_wf _ _ _ ih

end Sys2Proof.Machine
end

