-- ==== Sys2Proof/Laws/HostTurn.lean ====
section
/-!
SUPPORT. Everything one statement of the host and one step of the machine can do, said once.
-/

namespace Sys2Proof.Machine

theorem withRead_next {a : Nat} {s t : State} {f : Word → State} (h : withRead a s f = .next t) :
    ∃ w, busRead a 32 s = .ok w ∧ t = f w := by
  unfold withRead at h
  split at h
  · next w hw => exact ⟨w, hw, (Host.Outcome.next.inj h).symm⟩
  · simp at h

/-- One statement either leaves every engine alone and keeps the memory's form, or is a bus write, which changes one
engine by its effect and nothing else but `sel`. -/
theorem hostStmt_next {st : HostStmt} {s t : State} (h : hostStmt st s = .next t) :
    (t.engines = s.engines ∧ t.sel = s.sel ∧ t.turns = s.turns ∧ t.turnDraws = s.turnDraws ∧
      (s.mem.wf → t.mem.wf)) ∨
    (∃ a v k off x, st = .bus (.write a 32 v) ∧ off % 4 = 0 ∧ off < windowSize ∧ s.engines[k]? = some x ∧
      a = x.base + off ∧ t = ({ s with sel := k } : State).updAt k (writeEffect off v)) := by
  cases st with
  | bus acc =>
    cases acc with
    | write a w v =>
      obtain ⟨k, off, x, rfl, h4, hlt, hx, ha, ht⟩ := busWrite_next h
      exact .inr ⟨a, v, k, off, x, rfl, h4, hlt, hx, ha, ht⟩
    | read a w =>
      simp only [hostStmt] at h
      split at h
      · cases h
        exact .inl ⟨rfl, rfl, rfl, rfl, id⟩
      · simp at h
  | poll a mask value =>
    obtain ⟨w, -, rfl⟩ := withRead_next h
    left
    split <;> exact ⟨rfl, rfl, rfl, rfl, id⟩
  | check base =>
    obtain ⟨w, -, rfl⟩ := withRead_next h
    left
    split <;> exact ⟨rfl, rfl, rfl, rfl, id⟩
  | transform c =>
    simp only [hostStmt] at h
    split at h
    · cases h
      exact .inl ⟨rfl, rfl, rfl, rfl, id⟩
    · split at h
      · simp at h
      · cases h
        exact .inl ⟨rfl, rfl, rfl, rfl, id⟩
  | feedBlock base c p i =>
    cases h
    exact .inl ⟨rfl, rfl, rfl, rfl, id⟩
  | readOutHi base a =>
    obtain ⟨w, -, rfl⟩ := withRead_next h
    exact .inl ⟨rfl, rfl, rfl, rfl, id⟩
  | readOutLo base a hi =>
    obtain ⟨w, -, rfl⟩ := withRead_next h
    exact .inl ⟨rfl, rfl, rfl, rfl, id⟩
  | storeBlock a v =>
    cases h
    exact .inl ⟨rfl, rfl, rfl, rfl, storeBlock_wf _ _ _⟩
  | ret n =>
    cases h
    exact .inl ⟨rfl, rfl, rfl, rfl, id⟩

/-- Everything one step can do to the engines: the host leaves them alone, the host writes a register, one engine
steps, or one engine is reset. -/
theorem step_next {s t : State} (h : step s = .next t) :
    (s.turn = .host ∧ t.engines = s.engines ∧ t.sel = s.sel ∧ (s.mem.wf → t.mem.wf)) ∨
    (∃ a v k off x rest, s.turn = .host ∧ s.prog = .bus (.write a 32 v) :: rest ∧ off % 4 = 0 ∧ off < windowSize ∧
      s.engines[k]? = some x ∧ a = x.base + off ∧
      t = ({ s.takeTurn with prog := rest, sel := k } : State).updAt k (writeEffect off v)) ∨
    (∃ k, s.turn = .engine k ∧ t = s.takeTurn.updAt k engineStep) ∨
    (∃ k, s.turn = .reset k ∧ t = s.takeTurn.updAt k fun _ => Engine.reset) := by
  unfold step at h
  cases ht : s.turn with
  | host =>
    rw [ht] at h
    simp only [advance, hostTurn] at h
    split at h
    · cases h
      exact .inl ⟨rfl, s.takeTurn_engines, s.takeTurn_sel, by simp⟩
    · next st rest hp =>
      rw [State.takeTurn_prog] at hp
      rcases hostStmt_next h with ⟨h1, h2, -, -, h5⟩ | ⟨a, v, k, off, x, rfl, h4, hlt, hx, ha, rfl⟩
      · exact .inl ⟨rfl, by simpa using h1, by simpa using h2, by simpa using h5⟩
      · exact .inr (.inl ⟨a, v, k, off, x, rest, rfl, hp, h4, hlt, by simpa using hx, ha, rfl⟩)
  | engine k =>
    rw [ht] at h
    cases h
    exact .inr (.inr (.inl ⟨k, rfl, rfl⟩))
  | reset k =>
    rw [ht] at h
    cases h
    exact .inr (.inr (.inr ⟨k, rfl, rfl⟩))

/-- The same at one instance: what a step can have done to the engine of instance `k`. -/
theorem step_engineAt {s t : State} (h : step s = .next t) {k : Nat} {e e' : Engine} (he : s.engineAt k = some e)
    (he' : t.engineAt k = some e') :
    e' = e ∨
    (∃ v off x rest, s.turn = .host ∧ s.engines[k]? = some x ∧ s.prog = .bus (.write (x.base + off) 32 v) :: rest ∧
      off % 4 = 0 ∧ off < windowSize ∧ e' = writeEffect off v e) ∨
    (s.turn = .engine k ∧ e' = engineStep e) ∨
    (s.turn = .reset k ∧ e' = Engine.reset) := by
  have hsame : ∀ u : State, u.engines = s.engines → u.engineAt k = some e := by
    intro u hu
    rw [State.engineAt, hu]
    exact he
  have hupd : ∀ (u : State) (j : Nat) (f : Engine → Engine), u.engines = s.engines → t = u.updAt j f →
      (e' = e ∨ (j = k ∧ e' = f e)) := by
    intro u j f hu rfl
    rw [State.engineAt_updAt, hsame u hu] at he'
    by_cases hj : j = k
    · simp only [hj, ↓reduceIte, Option.map_some, Option.some.injEq] at he'
      exact .inr ⟨hj, he'.symm⟩
    · simp only [hj, ↓reduceIte, Option.some.injEq] at he'
      exact .inl he'.symm
  rcases step_next h with ⟨-, h1, -, -⟩ | ⟨a, v, j, off, x, rest, h1, h2, h4, hlt, hx, rfl, ht⟩ | ⟨j, hj, ht⟩ |
    ⟨j, hj, ht⟩
  · rw [hsame t h1] at he'
    exact .inl (Option.some.inj he').symm
  · rcases hupd _ _ _ (by simp) ht with h0 | ⟨rfl, h0⟩
    · exact .inl h0
    · exact .inr (.inl ⟨v, off, x, rest, h1, hx, h2, h4, hlt, h0⟩)
  · rcases hupd _ _ _ (by simp) ht with h0 | ⟨rfl, h0⟩
    · exact .inl h0
    · exact .inr (.inr (.inl ⟨hj, h0⟩))
  · rcases hupd _ _ _ (by simp) ht with h0 | ⟨rfl, h0⟩
    · exact .inl h0
    · exact .inr (.inr (.inr ⟨hj, h0⟩))

/-- A step keeps the instances and their windows. -/
theorem step_bases {s t : State} (h : step s = .next t) : t.engines.map Slot.base = s.engines.map Slot.base := by
  rcases step_next h with ⟨-, h1, -, -⟩ | ⟨a, v, j, off, x, rest, -, -, -, -, -, -, rfl⟩ | ⟨j, -, rfl⟩ | ⟨j, -, rfl⟩
  · rw [h1]
  · rw [State.updAt_bases]
    simp
  · rw [State.updAt_bases]
    simp
  · rw [State.updAt_bases]
    simp

end Sys2Proof.Machine
end

