-- ==== Sys2Proof/Laws/Runs.lean ====
section
/-!
SUPPORT. Runs over a list of turns: the list does not influence what a move does, a run is taken move by move, and what
every move keeps a run keeps.
-/

namespace Sys2Proof.Machine

/-- Replace the turns of the state an outcome gives. -/
def withTurns (ts : List Agent) : Host.Outcome State Fault Refusal → Host.Outcome State Fault Refusal
  | .next t => .next { t with turns := ts }
  | .fault f => .fault f
  | .refused r => .refused r

theorem busRead_turns (a w : Nat) (s : State) (ts : List Agent) :
    busRead a w { s with turns := ts } = busRead a w s := rfl

theorem busWrite_turns (a w : Nat) (v : Word) (s : State) (ts : List Agent) :
    busWrite a w v { s with turns := ts } = withTurns ts (busWrite a w v s) := by
  have hr : ({ s with turns := ts } : State).resolve a w = s.resolve a w := rfl
  cases h : s.resolve a w with
  | error f => rw [busWrite_error v h, busWrite_error v (hr.trans h)]; rfl
  | ok p => rw [busWrite_ok v h, busWrite_ok v (hr.trans h)]; rfl

theorem withRead_turns (a : Nat) (s : State) (ts : List Agent) (f g : Word → State)
    (hfg : ∀ w, f w = { g w with turns := ts }) :
    withRead a { s with turns := ts } f = withTurns ts (withRead a s g) := by
  unfold withRead
  rw [busRead_turns]
  cases busRead a 32 s <;> simp [withTurns, hfg]

/-- A statement does the same whatever turns come later. -/
theorem hostStmt_turns (st : HostStmt) (s : State) (ts : List Agent) :
    hostStmt st { s with turns := ts } = withTurns ts (hostStmt st s) := by
  cases st with
  | bus acc =>
    cases acc with
    | write a w v => exact busWrite_turns a w v s ts
    | read a w =>
      simp only [hostStmt, busRead_turns]
      cases busRead a w s <;> rfl
  | poll a mask value =>
    exact withRead_turns _ _ _ _ _ fun w => by split <;> rfl
  | check base =>
    exact withRead_turns _ _ _ _ _ fun w => by split <;> rfl
  | transform c =>
    simp only [hostStmt]
    split
    · rfl
    · split <;> rfl
  | feedBlock base c p i => rfl
  | readOutHi base a => exact withRead_turns _ _ _ _ _ fun w => rfl
  | readOutLo base a hi => exact withRead_turns _ _ _ _ _ fun w => rfl
  | storeBlock a v => rfl
  | ret n => rfl

/-- A move does the same whatever turns come later. -/
theorem advance_turns (who : Agent) (s : State) (ts : List Agent) :
    advance who { s with turns := ts } = withTurns ts (advance who s) := by
  cases who with
  | host =>
    simp only [advance, hostTurn]
    split
    · rfl
    · next st rest hp => exact hostStmt_turns st { s with prog := rest } ts
  | engine k => rfl
  | reset k => rfl

@[simp] theorem runTurns_nil (s : State) : s.runTurns [] = .next { s with turns := [] } := rfl

theorem step_of_turns (s : State) (t : Agent) (ts : List Agent) :
    step { s with turns := t :: ts } = withTurns ts (advance t s) := by
  show advance t { s with turns := ts } = _
  exact advance_turns ..

theorem coreRun_succ (M : Host.Core) (n : Nat) (s : M.State) :
    M.run (n + 1) s =
      match M.step s with
      | .next t => M.run n t
      | .fault r => .fault r
      | .refused r => .refused r := rfl

/-- A run is its first move and then the run of the rest. -/
theorem runTurns_cons (s : State) (t : Agent) (ts : List Agent) :
    s.runTurns (t :: ts) =
      match advance t s with
      | .next u => u.runTurns ts
      | .fault f => .fault f
      | .refused r => .refused r := by
  have h := coreRun_succ Sys2Proof.core ts.length { s with turns := t :: ts }
  have hs : Sys2Proof.core.step { s with turns := t :: ts } = withTurns ts (advance t s) := step_of_turns s t ts
  rw [hs] at h
  refine Eq.trans h ?_
  cases advance t s <;> rfl

theorem runTurns_cons_next {s t : State} {a : Agent} {ts : List Agent} (h : s.runTurns (a :: ts) = .next t) :
    ∃ u, advance a s = .next u ∧ u.runTurns ts = .next t := by
  rw [runTurns_cons] at h
  split at h
  · next u hu => exact ⟨u, hu, h⟩
  · simp at h
  · simp at h

/-- The turns a state holds of its own do not matter to a run over a given list. -/
theorem runTurns_turns (s : State) (ts us : List Agent) : ({ s with turns := us } : State).runTurns ts = s.runTurns ts :=
  rfl

/-- A run over two lists is the run over the first, then over the second. -/
theorem runTurns_append (s : State) (ts us : List Agent) :
    s.runTurns (ts ++ us) =
      match s.runTurns ts with
      | .next u => u.runTurns us
      | .fault f => .fault f
      | .refused r => .refused r := by
  induction ts generalizing s with
  | nil => rfl
  | cons t ts ih =>
    rw [List.cons_append, runTurns_cons, runTurns_cons]
    cases advance t s with
    | next u => exact ih u
    | fault f => rfl
    | refused r => rfl

theorem runTurns_append_next {s t : State} {ts us : List Agent} (h : s.runTurns (ts ++ us) = .next t) :
    ∃ u, s.runTurns ts = .next u ∧ u.runTurns us = .next t := by
  rw [runTurns_append] at h
  split at h
  · next u hu => exact ⟨u, hu, h⟩
  · simp at h
  · simp at h

/-- One more turn of a schedule. -/
theorem firstTurns_succ (sched : Nat → Agent) (n : Nat) : firstTurns sched (n + 1) = firstTurns sched n ++ [sched n] := by
  simp [firstTurns, List.range_succ]

/-- What one move can have done to the engine of instance `k`. -/
theorem advance_engineAt {a : Agent} {s t : State} (h : advance a s = .next t) {k : Nat} {e : Engine}
    (he : s.engineAt k = some e) :
    ∃ e', t.engineAt k = some e' ∧
      (e' = e ∨ (∃ v off, a = .host ∧ off % 4 = 0 ∧ off < windowSize ∧ e' = writeEffect off v e) ∨
        (a = .engine k ∧ e' = engineStep e) ∨ (a = .reset k ∧ e' = Engine.reset)) := by
  have hs : step { s with turns := [a] } = .next { t with turns := [] } := by
    rw [step_of_turns, h]
    rfl
  have hlen : ({ t with turns := [] } : State).engines.length = s.engines.length := by
    have := congrArg List.length (step_bases hs)
    simpa using this
  obtain ⟨x, hx, rfl⟩ := State.slot_of_engineAt he
  have hk : k < t.engines.length := by
    have := (List.getElem?_eq_some_iff.1 hx).1
    simp only at hlen
    omega
  have he' : t.engineAt k = some (t.engines[k]).eng := by simp [State.engineAt, hk]
  refine ⟨_, he', ?_⟩
  have hturn : ({ s with turns := [a] } : State).turn = a := rfl
  rcases step_engineAt hs (e := x.eng) (k := k) (by simpa [State.engineAt] using he)
    (e' := (t.engines[k]).eng) (by simpa [State.engineAt] using he') with h1 | ⟨v, off, y, rest, h1, h2, h3, h4, h5, h6⟩ |
    ⟨h1, h2⟩ | ⟨h1, h2⟩
  · exact .inl h1
  · exact .inr (.inl ⟨v, off, hturn.symm.trans h1, h4, h5, h6⟩)
  · exact .inr (.inr (.inl ⟨hturn.symm.trans h1, h2⟩))
  · exact .inr (.inr (.inr ⟨hturn.symm.trans h1, h2⟩))

end Sys2Proof.Machine
end

