-- ==== Sys2Proof/Laws/Engine.lean ====
section
/-!
SUPPORT. Everything a host write and an engine step can do to one engine, said once, and the engine's invariants.
-/

namespace Sys2Proof.Machine

/-- What a CTRL write does, by the word and the engine's state (`44_control_commands.md` R200). -/
theorem dispatchEffect_cases (w : Word) (e : Engine) :
    (decode w = .reserved w ∧ dispatchEffect w e = e.raise .cmd) ∨
    (w = 0#32 ∧ dispatchEffect w e = e) ∨
    (e.phase ≠ .idle ∧ (w = 1#32 ∨ w = 2#32 ∨ w = 3#32 ∨ w = 4#32) ∧ dispatchEffect w e = e.raise .busy) ∨
    (e.phase = .idle ∧ e.keyValid = false ∧ (w = 2#32 ∨ w = 3#32) ∧ dispatchEffect w e = e.raise .nokey) ∨
    (e.phase = .idle ∧ w = 1#32 ∧ dispatchEffect w e = kschedAccept e) ∨
    (e.phase = .idle ∧ e.keyValid = true ∧ w = 2#32 ∧ dispatchEffect w e = blockAccept .enc e) ∨
    (e.phase = .idle ∧ e.keyValid = true ∧ w = 3#32 ∧ dispatchEffect w e = blockAccept .dec e) ∨
    (e.phase = .idle ∧ w = 4#32 ∧ dispatchEffect w e = e.acknowledge) := by
  by_cases h0 : w = 0#32
  · subst h0; exact .inr (.inl ⟨rfl, rfl⟩)
  by_cases h1 : w = 1#32
  · subst h1
    rcases commandGate_cases false kschedAccept e with ⟨hp, h⟩ | ⟨-, hf, -⟩ | ⟨hp, -, h⟩
    · exact .inr (.inr (.inl ⟨hp, .inl rfl, h⟩))
    · cases hf
    · exact .inr (.inr (.inr (.inr (.inl ⟨hp, rfl, h⟩))))
  by_cases h2 : w = 2#32
  · subst h2
    rcases commandGate_cases true (blockAccept .enc) e with ⟨hp, h⟩ | ⟨hp, -, hk, h⟩ | ⟨hp, hk, h⟩
    · exact .inr (.inr (.inl ⟨hp, .inr (.inl rfl), h⟩))
    · exact .inr (.inr (.inr (.inl ⟨hp, hk, .inl rfl, h⟩)))
    · exact .inr (.inr (.inr (.inr (.inr (.inl ⟨hp, hk rfl, rfl, h⟩)))))
  by_cases h3 : w = 3#32
  · subst h3
    rcases commandGate_cases true (blockAccept .dec) e with ⟨hp, h⟩ | ⟨hp, -, hk, h⟩ | ⟨hp, hk, h⟩
    · exact .inr (.inr (.inl ⟨hp, .inr (.inr (.inl rfl)), h⟩))
    · exact .inr (.inr (.inr (.inl ⟨hp, hk, .inr rfl, h⟩)))
    · exact .inr (.inr (.inr (.inr (.inr (.inr (.inl ⟨hp, hk rfl, rfl, h⟩))))))
  by_cases h4 : w = 4#32
  · subst h4
    rcases commandGate_cases false Engine.acknowledge e with ⟨hp, h⟩ | ⟨-, hf, -⟩ | ⟨hp, -, h⟩
    · exact .inr (.inr (.inl ⟨hp, .inr (.inr (.inr rfl)), h⟩))
    · cases hf
    · exact .inr (.inr (.inr (.inr (.inr (.inr (.inr ⟨hp, rfl, h⟩))))))
  have hd : decode w = .reserved w := by simp [decode, h0, h1, h2, h3, h4]
  exact .inl ⟨hd, by simp [dispatchEffect, hd]⟩

/-- A register write other than CTRL changes at most KEY and DIN. -/
theorem writeReg_changes (off : Nat) (v : Word) (e : Engine) :
    ∃ k d, writeReg off v e = { e with key := k, din := d } := by
  unfold writeReg
  repeat' split
  all_goals exact ⟨_, _, rfl⟩

/-- A write to a busy engine leaves everything but KEY, DIN and the error flags alone: a running command goes on
undisturbed (`20_memory.md` R58, `44_control_commands.md` R200). -/
theorem writeEffect_busy (off : Nat) (v : Word) {e : Engine} (h : e.phase ≠ .idle) :
    ∃ k d a b c, writeEffect off v e = { e with key := k, din := d, errCmd := a, errBusy := b, errNokey := c } := by
  unfold writeEffect
  split
  · rcases dispatchEffect_cases v e with ⟨-, h1⟩ | ⟨-, h1⟩ | ⟨-, -, h1⟩ | ⟨hp, -⟩ | ⟨hp, -⟩ | ⟨hp, -⟩ | ⟨hp, -⟩ | ⟨hp, -⟩
    · exact ⟨_, _, _, _, _, h1⟩
    · exact ⟨_, _, _, _, _, h1⟩
    · exact ⟨_, _, _, _, _, h1⟩
    all_goals exact absurd hp h
  · obtain ⟨k, d, h1⟩ := writeReg_changes off v e
    exact ⟨k, d, _, _, _, h1⟩

/-! Engine steps. -/

theorem engineStep_idle {e : Engine} (h : e.phase = .idle) : engineStep e = e := by
  simp [engineStep, h]

theorem engineStep_ksched {e : Engine} (h : e.phase = .ksched) (hc : e.cnt ≠ 15#4) :
    engineStep e =
      { e with
        c := rotl28 e.c (shiftAmount e.cnt.toNat), d := rotl28 e.d (shiftAmount e.cnt.toNat),
        rk := e.rk.set e.cnt.toNat (contract (rotateHalves e.cnt.toNat (e.c, e.d))), cnt := e.cnt + 1#4 } := by
  simp [engineStep, h, kschedStep, hc, rotateHalves]

theorem engineStep_ksched_last {e : Engine} (h : e.phase = .ksched) (hc : e.cnt = 15#4) :
    engineStep e =
      { e with
        c := rotl28 e.c (shiftAmount e.cnt.toNat), d := rotl28 e.d (shiftAmount e.cnt.toNat),
        rk := e.rk.set e.cnt.toNat (contract (rotateHalves e.cnt.toNat (e.c, e.d))),
        keyValid := true, cnt := 0#4, phase := .idle } := by
  simp [engineStep, h, kschedStep, hc, rotateHalves, kschedComplete]

theorem engineStep_block {e : Engine} (h : e.phase = .block) (hc : e.cnt ≠ 15#4) :
    engineStep e =
      { e with
        l := e.r, r := e.l ^^^ feistelF e.r (keyFor e.rk e.dirn e.cnt.toNat), cnt := e.cnt + 1#4 } := by
  simp [engineStep, h, blockStep, hc, feistelRound]

theorem engineStep_block_last {e : Engine} (h : e.phase = .block) (hc : e.cnt = 15#4) :
    engineStep e =
      { e with
        l := e.r, r := e.l ^^^ feistelF e.r (keyFor e.rk e.dirn e.cnt.toNat),
        dout := blockOutput (e.r, e.l ^^^ feistelF e.r (keyFor e.rk e.dirn e.cnt.toNat)),
        done := true, cnt := 0#4, phase := .idle } := by
  simp [engineStep, h, blockStep, hc, feistelRound, blockComplete]

theorem cnt_succ_toNat {c : BitVec 4} (h : c ≠ 15#4) : (c + 1#4).toNat = c.toNat + 1 := by
  revert c
  decide

/-! The engine's invariant (`10_state.md` R39). -/

theorem Engine.reset_inv : Engine.reset.Inv := by decide

theorem writeEffect_inv (off : Nat) (v : Word) {e : Engine} (h : e.Inv) : (writeEffect off v e).Inv := by
  unfold writeEffect
  split
  · rcases dispatchEffect_cases v e with ⟨-, h1⟩ | ⟨-, h1⟩ | ⟨-, -, h1⟩ | ⟨-, -, -, h1⟩ | ⟨-, -, h1⟩ | ⟨-, hk, -, h1⟩ |
      ⟨-, hk, -, h1⟩ | ⟨hp, -, h1⟩
    · rw [h1]; exact h
    · rw [h1]; exact h
    · rw [h1]; exact h
    · rw [h1]; exact h
    · rw [h1]; simp [Engine.Inv]
    · rw [h1]; simp [Engine.Inv, hk]
    · rw [h1]; simp [Engine.Inv, hk]
    · rw [h1]; simpa [Engine.Inv, hp] using h.1 hp
  · obtain ⟨k, d, h1⟩ := writeReg_changes off v e
    rw [h1]
    exact h

theorem engineStep_inv {e : Engine} (h : e.Inv) : (engineStep e).Inv := by
  cases hp : e.phase with
  | idle => rw [engineStep_idle hp]; exact h
  | ksched =>
    by_cases hc : e.cnt = 15#4
    · rw [engineStep_ksched_last hp hc]; simp [Engine.Inv]
    · rw [engineStep_ksched hp hc]; simpa [Engine.Inv, hp] using h.2.1 hp
  | block =>
    by_cases hc : e.cnt = 15#4
    · rw [engineStep_block_last hp hc]; simp [Engine.Inv]
    · rw [engineStep_block hp hc]; simpa [Engine.Inv, hp] using ⟨h.2.2.1 hp, h.2.2.2 hp⟩

end Sys2Proof.Machine
end

