-- ==== Sys2Proof/Laws/PerInstr.lean ====
section
/-!
SUPPORT. What holds of every command as syntax, one lemma per constructor: its word has no RSVD bit set and its CMD
code at most 4 (`30_encoding.md` R81), so it is a proper CTRL word.
-/

namespace Sys2Proof.Laws

/-- The word of a command is a proper CTRL word. -/
abbrev ProperWord.Statement (i : Instr) : Prop :=
  i.wf = true ∧ ctrlWordWf (encode i) = true ∧ (encode i).extractLsb' 4 28 = 0#28

theorem ProperWord.nop : ProperWord.Statement .nop := by decide

theorem ProperWord.ksched : ProperWord.Statement .ksched := by decide

theorem ProperWord.enc : ProperWord.Statement .enc := by decide

theorem ProperWord.dec : ProperWord.Statement .dec := by decide

theorem ProperWord.clr : ProperWord.Statement .clr := by decide

end Sys2Proof.Laws
end

