-- ==== Sys2Proof/Laws/Steps.lean ====
section
/-!
SUPPORT. One step by kind of turn: an engine's turn, a reset, and the host's turn at a bus statement.
-/

namespace Sys2Proof.Machine

theorem step_engine {s : State} {k : Nat} {x : Slot} {ts : List Agent} (ht : s.turns = .engine k :: ts)
    (hx : s.engines[k]? = some x) :
    step s = .next (({ s with turns := ts } : State).putEngine k x (engineStep x.eng)) := by
  unfold step
  rw [State.turn_of_cons s _ _ ht, State.takeTurn_of_cons s _ _ ht]
  exact congrArg Host.Outcome.next (State.updAt_eq_putEngine (s := { s with turns := ts }) hx _)

theorem step_reset {s : State} {k : Nat} {x : Slot} {ts : List Agent} (ht : s.turns = .reset k :: ts)
    (hx : s.engines[k]? = some x) :
    step s = .next (({ s with turns := ts } : State).putEngine k x Engine.reset) := by
  unfold step
  rw [State.turn_of_cons s _ _ ht, State.takeTurn_of_cons s _ _ ht]
  exact congrArg Host.Outcome.next (State.updAt_eq_putEngine (s := { s with turns := ts }) hx _)

/-- The host's turn runs its next statement. -/
theorem step_host {s : State} {ts : List Agent} {st : HostStmt} {rest : List HostStmt} (ht : s.turns = .host :: ts)
    (hp : s.prog = st :: rest) : step s = hostStmt st { s with turns := ts, prog := rest } := by
  unfold step
  rw [State.turn_of_cons s _ _ ht, State.takeTurn_of_cons s _ _ ht]
  simp [advance, hostTurn, hp]

/-- A host write to a register of instance `k`, at any offset of its window that is a multiple of 4. -/
theorem step_write {s : State} {k off : Nat} {x : Slot} {v : Word} {ts : List Agent} {rest : List HostStmt}
    (hpf : s.PlatformOk) (hx : s.engines[k]? = some x) (hoff : off < 64) (h4 : off % 4 = 0)
    (ht : s.turns = .host :: ts) (hp : s.prog = .bus (.write (x.base + off) 32 v) :: rest) :
    step s = .next (({ s with turns := ts, prog := rest, sel := k } : State).putEngine k x
      (writeEffect off v x.eng)) := by
  rw [step_host ht hp]
  have hr : ({ s with turns := ts, prog := rest } : State).resolve (x.base + off) 32 = .ok (k, off) := by
    have h := State.resolve_of_slot (w := 32) hpf hx hoff
    rw [if_neg (by omega)] at h
    exact h
  refine (busWrite_ok v hr).trans (congrArg Host.Outcome.next ?_)
  exact State.updAt_eq_putEngine (s := { s with turns := ts, prog := rest, sel := k }) hx _

/-- A host read of a register of instance `k`. -/
theorem busRead_of_slot {s : State} {k off : Nat} {x : Slot} (hpf : s.PlatformOk) (hx : s.engines[k]? = some x)
    (hoff : off < 64) (h4 : off % 4 = 0) : busRead (x.base + off) 32 s = .ok (readReg off x.eng) := by
  have h := State.resolve_of_slot (w := 32) hpf hx hoff
  rw [if_neg (by omega)] at h
  exact busRead_ok h hx

theorem step_read {s : State} {k off : Nat} {x : Slot} {ts : List Agent} {rest : List HostStmt} (hpf : s.PlatformOk)
    (hx : s.engines[k]? = some x) (hoff : off < 64) (h4 : off % 4 = 0) (ht : s.turns = .host :: ts)
    (hp : s.prog = .bus (.read (x.base + off) 32) :: rest) :
    step s = .next { s with turns := ts, prog := rest, reads := readReg off x.eng :: s.reads } := by
  rw [step_host ht hp]
  have h : busRead (x.base + off) 32 { s with turns := ts, prog := rest } = .ok (readReg off x.eng) :=
    busRead_of_slot hpf hx hoff h4
  simp only [hostStmt, h]
  rfl

end Sys2Proof.Machine
end

