-- ==== Sys2Proof/Laws/Wait.lean ====
section
/-!
SUPPORT. A host at WAIT (`30_encoding.md` R89, R90): what each move of an agent does to a machine whose host waits, and
how far a busy engine still is from idle.
-/

namespace Sys2Proof.Machine

theorem expandPseudo_wait (b : Nat) : expandPseudo b .wait = [.poll (b + 4) 0x00000001#32 0x00000000#32] := rfl

/-- WAIT's test of a STATUS word: BUSY is 0 exactly while idle (`10_state.md` R30, R34). -/
theorem statusWord_wait (e : Engine) : statusWord e &&& 0x00000001#32 = 0x00000000#32 ↔ e.phase = .idle := by
  have h : ∀ (a : BitVec 18) (b : Bool),
      (a ++ BitVec.ofBool b).setWidth 32 &&& 0x00000001#32 = 0x00000000#32 ↔ b = false := by
    intro a b
    have h0 : (a ++ BitVec.ofBool b)[0] = b := by
      rw [← BitVec.getLsbD_eq_getElem, BitVec.getLsbD_append]
      cases b <;> rfl
    constructor
    · intro h
      simpa [h0] using congrArg (fun w => w.getLsbD 0) h
    · rintro rfl
      ext i hi
      cases i <;> simp_all
  rw [statusWord, h, ← Bool.not_eq_true, busy_iff, not_not]

/-- The host's move at a WAIT: it goes on where the instance is idle, and changes nothing where it is busy. -/
theorem advance_host_wait {s : State} {k : Nat} {x : Slot} {rest : List HostStmt} (hpf : s.PlatformOk)
    (hx : s.engines[k]? = some x) (hp : s.prog = expandPseudo x.base .wait ++ rest) :
    advance .host s =
      .next (if x.eng.phase = .idle then { s with prog := rest, reads := statusWord x.eng :: s.reads } else s) := by
  rw [expandPseudo_wait] at hp
  have h : busRead (x.base + 4) 32 { s with prog := rest } = .ok (statusWord x.eng) :=
    busRead_of_slot (s := { s with prog := rest }) hpf hx (by omega) rfl
  simp only [advance, hostTurn, hp, List.singleton_append, hostStmt, withRead, h, statusWord_wait]
  split
  · rfl
  · simp [State.prepend, ← hp]

/-- The platform's promises depend on the windows and the selected instance alone. -/
theorem State.platformOk_of_bases {s t : State} (h : t.engines.map Slot.base = s.engines.map Slot.base)
    (hsel : t.sel = s.sel) (hpf : s.PlatformOk) : t.PlatformOk := by
  have hl : t.engines.length = s.engines.length := by simpa using congrArg List.length h
  refine ⟨by rw [hsel, hl]; exact hpf.1, fun x hx => ?_, ?_⟩
  · have hm : x.base ∈ s.engines.map Slot.base := h ▸ List.mem_map_of_mem hx
    obtain ⟨y, hy, hb⟩ := List.mem_map.1 hm
    rw [← hb]
    exact hpf.2.1 y hy
  · have hd := hpf.2.2
    rw [← List.pairwise_map (R := (· ≠ ·))] at hd ⊢
    rwa [h]

/-- Everything one move of any agent does to a machine whose host waits for instance `k`: the WAIT ends, or the host
goes on waiting on the same platform and the instance is as it was, has stepped, or has been reset. -/
theorem advance_wait {s : State} {k : Nat} {x : Slot} {rest : List HostStmt} (hpf : s.PlatformOk)
    (hx : s.engines[k]? = some x) (hp : s.prog = expandPseudo x.base .wait ++ rest) (a : Agent) :
    ∃ t y, advance a s = .next t ∧ t.engines[k]? = some y ∧ y.base = x.base ∧ t.PlatformOk ∧
      ((a = .host ∧ x.eng.phase = .idle ∧ t.prog = rest ∧ y = x) ∨
        (t.prog = s.prog ∧
          ((a = .host ∧ x.eng.phase ≠ .idle ∧ y = x) ∨ (a = .engine k ∧ y.eng = engineStep x.eng) ∨
            (a = .reset k ∧ y.eng = Engine.reset) ∨
            (a ≠ .host ∧ a ≠ .engine k ∧ a ≠ .reset k ∧ y = x)))) := by
  have hupd : ∀ (j : Nat) (f : Engine → Engine), ∃ y, (s.updAt j f).engines[k]? = some y ∧ y.base = x.base ∧
      y.eng = if j = k then f x.eng else x.eng := by
    intro j f
    rw [State.updAt_engines, List.getElem?_modify, hx]
    by_cases hj : j = k
    · exact ⟨{ x with eng := f x.eng }, by simp [hj], rfl, by simp [hj]⟩
    · exact ⟨x, by simp [hj], rfl, by simp [hj]⟩
  have hslot : ∀ y : Slot, y.base = x.base → y.eng = x.eng → y = x := by
    rintro ⟨b, e⟩ rfl rfl
    rfl
  cases a with
  | host =>
    rw [advance_host_wait hpf hx hp]
    by_cases hi : x.eng.phase = .idle
    · rw [if_pos hi]
      exact ⟨_, x, rfl, hx, rfl, hpf, .inl ⟨rfl, hi, rfl, rfl⟩⟩
    · rw [if_neg hi]
      exact ⟨s, x, rfl, hx, rfl, hpf, .inr ⟨rfl, .inl ⟨rfl, hi, rfl⟩⟩⟩
  | engine j =>
    obtain ⟨y, hy, hb, he⟩ := hupd j engineStep
    refine ⟨_, y, rfl, hy, hb, State.platformOk_of_bases (s.updAt_bases ..) rfl hpf, .inr ⟨rfl, ?_⟩⟩
    by_cases hj : j = k
    · exact .inr (.inl ⟨by rw [hj], by simpa [hj] using he⟩)
    · exact .inr (.inr (.inr ⟨by simp, by simpa using hj, by simp, hslot y hb (by simpa [hj] using he)⟩))
  | reset j =>
    obtain ⟨y, hy, hb, he⟩ := hupd j fun _ => Engine.reset
    refine ⟨_, y, rfl, hy, hb, State.platformOk_of_bases (s.updAt_bases ..) rfl hpf, .inr ⟨rfl, ?_⟩⟩
    by_cases hj : j = k
    · exact .inr (.inr (.inl ⟨by rw [hj], by simpa [hj] using he⟩))
    · exact .inr (.inr (.inr ⟨by simp, by simp, by simpa using hj, hslot y hb (by simpa [hj] using he)⟩))

/-- Engine steps a command still needs (`70_reset_and_hazards.md` R280). -/
def stepsLeft (e : Engine) : Nat :=
  match e.phase with
  | .idle => 0
  | .ksched => 16 - e.cnt.toNat
  | .block => 16 - e.cnt.toNat

theorem stepsLeft_eq_zero (e : Engine) : stepsLeft e = 0 ↔ e.phase = .idle := by
  have := e.cnt.isLt
  cases h : e.phase <;> simp [stepsLeft, h] <;> omega

/-- Each engine step of a busy engine is one step less to go. -/
theorem stepsLeft_engineStep (e : Engine) : stepsLeft (engineStep e) = stepsLeft e - 1 := by
  have hlt := e.cnt.isLt
  cases hp : e.phase with
  | idle => simp [engineStep_idle hp, stepsLeft, hp]
  | ksched =>
    by_cases hc : e.cnt = 15#4
    · rw [engineStep_ksched_last hp hc]; simp [stepsLeft, hp, hc]
    · rw [engineStep_ksched hp hc]; simp only [stepsLeft, hp, cnt_succ_toNat hc]; omega
  | block =>
    by_cases hc : e.cnt = 15#4
    · rw [engineStep_block_last hp hc]; simp [stepsLeft, hp, hc]
    · rw [engineStep_block hp hc]; simp only [stepsLeft, hp, cnt_succ_toNat hc]; omega

end Sys2Proof.Machine
end

