-- ==== Sys2Proof/Tests/Slice0.lean ====
section
/-!
SUPPORT. The model's own tests, expected values from the spec's tables (`95_test_vectors.md`), one step or one function
each, and for every statement with hypotheses a concrete case that meets them.
-/

namespace Sys2Proof.Tests

open Sys2Proof Sys2Proof.Machine

/-! ## Small states -/

/-- An engine with the flags and phase of the spec's dispatch rows. -/
def engineIn (phase : Phase) (cnt : BitVec 4) (keyValid done : Bool) : Engine :=
  { Engine.reset with phase := phase, cnt := cnt, keyValid := keyValid, done := done }

/-- Two instances, at 0x40 and 0x80; the second, which is selected, has the engine `e`. -/
def bench (e : Engine) (turns : List Agent) (prog : List HostStmt) : State :=
  { State.reset with
    engines := [{ base := 0x40, eng := Engine.reset }, { base := 0x80, eng := e }], sel := 1, turns := turns,
    prog := prog }

/-- The host about to write `w` to CTRL of the second instance. -/
def writing (e : Engine) (w : Word) : State := bench e [.host] [.bus (.write 0x80 32 w)]

/-- A test on the state a step gives. -/
def after (o : Host.Outcome State Fault Refusal) (test : State → Bool) : Bool :=
  match o with
  | .next t => test t
  | .fault _ => false
  | .refused _ => false

/-- STATUS of the second instance. -/
def statusOf (s : State) : Option Word := (s.engineAt 1).map statusWord

/-! ## Well-formedness: one ill-formed term for each check -/

theorem test_wf_rejects_reserved_cmd : ctrlWordWf 0x00000005#32 = false := by decide

theorem test_wf_rejects_rsvd_bit : ctrlWordWf 0x00000010#32 = false := by decide

theorem test_wf_rejects_narrow_access : (Access.write 0x80 8 0#32).wf = false ∧ (Access.read 0x80 64).wf = false := by
  decide

theorem test_wf_rejects_odd_offset : (Access.read 0x82 32).wf = false := by decide

theorem test_wf_rejects_base : baseWf 0x20 = false ∧ (HostStmt.check 0x20).wf = false := by decide

/-- A call on the instances `units`. -/
def callOn (units : List Nat) : Call :=
  { out := 500, cap := 8, dir := .enc, key := unpack64 0x133457799BBCDFF1#64, inp := 100, length := 5, inCap := 8,
    unit := 0, more := units }

theorem test_wf_rejects_same_instance_twice : (HostStmt.transform (callOn [0])).wf = false := by decide

theorem test_wf_rejects_unaligned_instance : (callOn [0x60]).wf = false := by decide

theorem test_wf_rejects_odd_block :
    (HostStmt.feedBlock 0 (callOn []) 0 4).wf = false ∧ (HostStmt.poll 2 0 0).wf = false ∧
      (HostStmt.readOutHi 1 0).wf = false ∧ (HostStmt.readOutLo 1 0 0).wf = false := by
  decide

/-! ## Decoding: words written out from `30_encoding.md` R81 and R84 -/

theorem test_decode_nop : decode 0b00000000000000000000000000000000#32 = .cmd .nop := by decide

theorem test_decode_ksched : decode 0b00000000000000000000000000000001#32 = .cmd .ksched := by decide

theorem test_decode_enc : decode 0b00000000000000000000000000000010#32 = .cmd .enc := by decide

theorem test_decode_dec : decode 0b00000000000000000000000000000011#32 = .cmd .dec := by decide

theorem test_decode_clr : decode 0b00000000000000000000000000000100#32 = .cmd .clr := by decide

theorem test_decode_reserved :
    decode 0xFFFFFFFF#32 = .reserved 0xFFFFFFFF#32 ∧ decode 0x80000001#32 = .reserved 0x80000001#32 := by decide

theorem test_decode_table_word : decodeTableWord 32 4 = some .clr ∧ decodeTableWord 32 0x10 = none := by decide

theorem test_disassemble :
    disassemble 0x00000003#32 = "DEC" ∧ disassemble 0x8000000F#32 = "RSVD 0x8000000F" := by decide +kernel

/-! ## Commands: the rows D-n of `95_test_vectors.md` section 4 -/

/-- D-12. -/
theorem test_nop_while_busy :
    after (step (writing (engineIn .ksched 5 false false) 0#32)) (fun t => statusOf t == some 0x00000511#32) = true := by
  decide +kernel

/-- D-19: re-key, DONE kept. -/
theorem test_ksched_rekeys :
    after (step (writing (engineIn .idle 0 true true) 1#32)) (fun t => statusOf t == some 0x00000015#32) = true := by
  decide +kernel

/-- Section 2.4: the halves of the key at acceptance. -/
theorem test_ksched_loads_halves :
    after (step (writing { Engine.reset with key := 0x133457799BBCDFF1#64 } 1#32))
      (fun t => (t.engineAt 1).map (fun e => (e.c, e.d)) == some (0xF0CCAAF#28, 0x556678F#28)) = true := by
  decide +kernel

/-- D-3. -/
theorem test_enc_without_key :
    after (step (writing (engineIn .idle 0 false false) 2#32)) (fun t => statusOf t == some 0x00040000#32) = true := by
  decide +kernel

/-- D-18 and section 2.7: DIR and DONE go to 0, the halves of IP(DIN). -/
theorem test_enc_loads_block :
    after (step (writing { engineIn .idle 0 true true with dirn := .dec, din := 0x0123456789ABCDEF#64 } 2#32))
      (fun t => statusOf t == some 0x00000023#32 &&
        (t.engineAt 1).map (fun e => (e.l, e.r)) == some (0xCC00CCFF#32, 0xF0AAF0AA#32)) = true := by
  decide +kernel

/-- D-17. -/
theorem test_dec_sets_direction :
    after (step (writing (engineIn .idle 0 true true) 3#32)) (fun t => statusOf t == some 0x0000002B#32) = true := by
  decide +kernel

/-- D-22. -/
theorem test_dec_while_busy :
    after (step (writing (engineIn .block 15 true false) 3#32)) (fun t => statusOf t == some 0x00020F23#32) = true := by
  decide +kernel

/-- D-20. -/
theorem test_clr_clears :
    after (step (writing { engineIn .idle 0 true true with errCmd := true, errBusy := true, errNokey := true } 4#32))
      (fun t => statusOf t == some 0x00000002#32) = true := by
  decide +kernel

/-- D-14. -/
theorem test_clr_while_busy :
    after (step (writing (engineIn .ksched 5 false false) 4#32)) (fun t => statusOf t == some 0x00020511#32) = true := by
  decide +kernel

/-- D-15: a reserved word is reported as reserved even while busy. -/
theorem test_reserved_while_busy :
    after (step (writing (engineIn .ksched 5 false false) 7#32)) (fun t => statusOf t == some 0x00010511#32) = true := by
  decide +kernel

/-- The host's fetch: the first step after reset runs the word (the row KSCHED of the opcode table). -/
theorem test_fetch_word_after_reset :
    after (step (State.reset.withFetchWord 32 1)) (fun t => (t.engineAt 0).map statusWord == some 0x00000011#32) =
      true := by
  decide +kernel

/-! ## Engine steps and reset -/

/-- Section 2.4, row 0. -/
theorem test_ksched_step :
    after (step (bench { engineIn .ksched 0 false false with c := 0xF0CCAAF#28, d := 0x556678F#28 } [.engine 1] []))
      (fun t => (t.engineAt 1).map (fun e => (e.c, e.d, rkEntry e.rk 0, e.cnt)) ==
        some (0xE19955F#28, 0xAACCF1E#28, 0x1B02EFFC7072#48, 1#4)) = true := by
  decide +kernel

/-- Section 2.6, last row of the encryption, and section 2.7: the round, the final swap and FP. -/
theorem test_block_last_step :
    after (step (bench { engineIn .block 15 true false with
        l := 0xC28C960D#32, r := 0x43423234#32, rk := Vector.replicate 16 0xCB3D8B0E17F5#48 } [.engine 1] []))
      (fun t => (t.engineAt 1).map (fun e => (e.l, e.r, e.dout, statusWord e)) ==
        some (0x43423234#32, 0x0A4CD995#32, 0x85E813540F0AB405#64, 0x00000006#32)) = true := by
  decide +kernel

/-- S-5: a reset in the middle of a KSCHED. -/
theorem test_reset_abandons :
    after (step (bench (engineIn .ksched 5 false false) [.reset 1] [])) (fun t => t.engineAt 1 == some Engine.reset) =
      true := by
  decide +kernel

/-! ## Registers: the rows M-n of section 3 -/

/-- M6 and M4. -/
theorem test_reads :
    after (step (bench { Engine.reset with dout := 0x85E813540F0AB405#64 } [.host] [.bus (.read 0x9C 32)]))
      (fun t => t.reads == [0x0F0AB405#32]) = true ∧
    after (step (bench { Engine.reset with key := 0x133457799BBCDFF1#64 } [.host] [.bus (.read 0x88 32)]))
      (fun t => t.reads == [0#32]) = true := by
  decide +kernel

/-- M15 and M14: one half written, also while busy. -/
theorem test_half_write :
    after (step (bench { engineIn .ksched 3 false false with key := 0x1122334455667788#64 } [.host]
        [.bus (.write 0x8C 32 0x9BBCDFF1#32)]))
      (fun t => (t.engineAt 1).map Engine.key == some 0x112233449BBCDFF1#64) = true := by
  decide +kernel

/-- M11: an 8-bit write of CTRL. -/
theorem test_narrow_write_faults :
    (match step (bench Engine.reset [.host] [.bus (.write 0x80 8 1#32)]) with
      | .fault f => decide (f = .busError 0)
      | _ => false) = true := by
  decide +kernel

/-! ## The cipher: sections 1.1 and 2 -/

theorem test_tables :
    permute 64 ip 0x0123456789ABCDEF#64 = 0xCC00CCFFF0AAF0AA#64 ∧ permute 64 fp 0x0123456789ABCDEF#64 = 0xFF330FAA00330FAA#64 ∧
    permute 48 expansion 0xF0AAF0AA#32 = 0x7A15557A1555#48 ∧ permute 32 roundPerm 0x5C82B597#32 = 0x234AA9BB#32 ∧
    permute 48 pc2 0xE19955FAACCF1E#56 = 0x1B02EFFC7072#48 ∧ substitute 0x6117BA866527#48 = 0x5C82B597#32 := by
  decide +kernel

theorem test_rotation : rotl28 0x8000000#28 1 = 0x0000001#28 ∧ rotl28 0xC000000#28 2 = 0x0000003#28 := by decide

theorem test_known_answer :
    des 0x133457799BBCDFF1#64 .enc 0x0123456789ABCDEF#64 = 0x85E813540F0AB405#64 := by decide +kernel

theorem test_published_vector :
    des 0x0E329232EA6D0D73#64 .enc 0x8787878787878787#64 = 0x0000000000000000#64 := by decide +kernel

/-! ## The host procedure: the rows T-n of section 5 -/

/-- A memory with the spec's eight input bytes at 100. -/
def inputMem : Memory := Memory.writeBytes [] 100 [0x01#8, 0x23#8, 0x45#8, 0x67#8, 0x89#8, 0xAB#8, 0xCD#8, 0xEF#8]

/-- T3: the padding bytes in the buffer are processed. -/
theorem test_transform_block :
    (match transform (callOn []) (fun _ => 0#8) inputMem with
      | .next (r, m) => decide (r = .returned 8) && m.read 500 == some 0x85#8 && m.read 507 == some 0x05#8 &&
          m.read 508 == none
      | _ => false) = true := by
  decide +kernel

/-- T2. -/
theorem test_capacity_error :
    (match transform { callOn [] with cap := 7 } (fun _ => 0#8) inputMem with
      | .next (r, m) => decide (r = .capacityError 8 7) && m == inputMem
      | _ => false) = true := by
  decide +kernel

/-! ## Witnesses: for every statement with hypotheses, a case that meets all of them -/

/-- The slot of the second instance of `bench`. -/
def slotOf (e : Engine) : Slot := { base := 0x80, eng := e }

theorem bench_ok (e : Engine) (ts : List Agent) (p : List HostStmt) : (bench e ts p).PlatformOk := by
  simp [bench, State.PlatformOk]

theorem bench_slot (e : Engine) (ts : List Agent) (p : List HostStmt) :
    (bench e ts p).engines[1]? = some (slotOf e) := rfl

/-- StepRunsCommand, CtrlWriteDispatch: every word. -/
theorem witness_ctrl_write (e : Engine) (w : Word) :
    (writing e w).PlatformOk ∧ (writing e w).engines[1]? = some (slotOf e) ∧
    (writing e w).turns = .host :: [] ∧ (writing e w).prog = .bus (.write (slotOf e).base 32 w) :: [] :=
  ⟨bench_ok e _ _, rfl, rfl, rfl⟩

/-- DecodeEncodeAgree, both parts. -/
theorem witness_wf_instr : Instr.clr.wf = true ∧ decode 0x00000004#32 = .cmd .clr := by decide

/-- ReservedWordsExact, NopChangesNothing: reserved words at both ends of both ranges. -/
theorem witness_reserved :
    decode 0x00000005#32 = .reserved 0x00000005#32 ∧ decode 0x0000000F#32 = .reserved 0x0000000F#32 ∧
    decode 0x00000010#32 = .reserved 0x00000010#32 ∧ (0x00000010#32 : Word).extractLsb' 0 4 = 0#4 ∧
    (0x00000010#32 : Word).extractLsb' 4 28 ≠ 0#28 := by decide

/-- FetchWordRunsCommand. -/
theorem witness_fetch : State.reset.PlatformOk ∧ Instr.ksched.wf = true := by decide +kernel

/-- KschedCommand, EncCommand, DecCommand, ClrCommand: idle with a key, idle without one, busy in both phases. -/
theorem witness_commands :
    ∀ e ∈ [engineIn .idle 0 true false, engineIn .idle 0 false false, engineIn .ksched 0 false false,
        engineIn .block 15 true false],
      (bench e [] []).engines[(bench e [] []).sel]? = some (slotOf e) := by
  decide +kernel

/-- ClrCommand: the status word of the worked example. -/
theorem witness_clr_status :
    statusWord { engineIn .idle 0 true true with errCmd := true, errBusy := true } = 0x00030006#32 := by decide +kernel

/-- KschedEngineStep and BlockEngineStep: the first, the last but one and the last step. -/
theorem witness_engine_steps :
    ∀ cnt ∈ [0#4, 14#4, 15#4], ∀ phase ∈ [Phase.ksched, .block],
      (bench (engineIn phase cnt false false) [.engine 1] []).turns = .engine 1 :: [] ∧
      (bench (engineIn phase cnt false false) [.engine 1] []).engines[1]? = some (slotOf (engineIn phase cnt false false)) ∧
      (engineIn phase cnt false false).phase = phase := by
  decide +kernel

/-- IdleEngineTakesNoStep and ResetClearsInstance. -/
theorem witness_idle_and_reset :
    (bench (engineIn .idle 0 true true) [.engine 1] []).turns = .engine 1 :: [] ∧
    (bench (engineIn .idle 0 true true) [.reset 1] []).turns = .reset 1 :: [] ∧
    (engineIn .idle 0 true true).phase = .idle ∧
    (bench (engineIn .idle 0 true true) [.reset 1] []).engines[1]? = some (slotOf (engineIn .idle 0 true true)) := by
  decide +kernel

/-- RegisterMap, StatusLayout, BadAccessIsBusError (permitted accesses): every register, and the reserved offsets at both
ends, read and written. -/
theorem witness_register_map :
    ∀ off ∈ [0x00, 0x04, 0x08, 0x0C, 0x10, 0x14, 0x18, 0x1C, 0x20, 0x24, 0x3C],
      off < 64 ∧ off % 4 = 0 ∧
      (bench Engine.reset [.host] [.bus (.read (0x80 + off) 32)]).PlatformOk ∧
      (bench Engine.reset [.host] [.bus (.read (0x80 + off) 32)]).prog = .bus (.read ((slotOf Engine.reset).base + off) 32) :: [] ∧
      (bench Engine.reset [.host] [.bus (.write (0x80 + off) 32 0#32)]).prog =
        .bus (.write ((slotOf Engine.reset).base + off) 32 0#32) :: [] := by
  decide +kernel

/-- BadAccessIsBusError (refused accesses): wrong widths, and offsets at both ends that are no multiple of 4. -/
theorem witness_bad_access :
    (∀ p ∈ [(0x00, 8), (0x00, 16), (0x3C, 64), (0x01, 32), (0x3F, 32)],
      p.1 < 64 ∧ (p.2 ≠ 32 ∨ p.1 % 4 ≠ 0) ∧
      (bench Engine.reset [.host] [.bus (.read (0x80 + p.1) p.2)]).prog =
        .bus (.read ((slotOf Engine.reset).base + p.1) p.2) :: []) := by
  decide +kernel

/-- AccessOutsideWindowsFaults: just below and just above the windows. -/
theorem witness_outside :
    ∀ a ∈ [0x3F, 0xC0], ∀ x ∈ (bench Engine.reset [.host] [.bus (.read a 32)]).engines, a < x.base ∨ x.base + 64 ≤ a := by
  decide +kernel

/-- KeyReadOnlyByKsched, and with it the hypothesis `step s = .next t` of the statements about every step: a DIN write,
a CLR while idle, an engine step and a reset. -/
theorem witness_steps :
    ∀ s ∈ [bench Engine.reset [.host] [.bus (.write 0x90 32 7#32)], writing (engineIn .idle 0 true true) 4#32,
        bench (engineIn .ksched 15 false true) [.engine 1] [], bench (engineIn .block 15 true false) [.engine 1] [],
        bench (engineIn .idle 0 true true) [.reset 1] []],
      after (step s) (fun t => (t.engines[1]?).isSome && (s.engines[1]?).isSome &&
        !(s.prog == [.bus (.write 0x80 32 (encode .ksched))])) = true := by
  decide +kernel

/-- ErrorFlagsSticky, DoneWriters: CLR clears a set flag and DONE. -/
theorem witness_flag_goes_off :
    after (step (writing { engineIn .idle 0 true true with errCmd := true, errBusy := true, errNokey := true } 4#32))
      (fun t => (t.engineAt 1).map (fun e => (e.errCmd, e.errBusy, e.errNokey, e.done)) ==
        some (false, false, false, false)) = true := by
  decide +kernel

/-- KeyValidWriters, DoneWriters, DoutWriters, RoundKeyWriters: each goes on or changes at a last engine step. -/
theorem witness_writers :
    after (step (bench { engineIn .ksched 15 false false with c := 1#28 } [.engine 1] []))
      (fun t => (t.engineAt 1).map (fun e => (e.keyValid, rkEntry e.rk 15 != 0#48)) == some (true, true)) = true ∧
    after (step (bench (engineIn .block 15 true false) [.engine 1] []))
      (fun t => (t.engineAt 1).map (fun e => (e.done, e.dout != 0#64)) == some (true, true)) = true ∧
    after (step (writing (engineIn .idle 0 true true) 1#32))
      (fun t => (t.engineAt 1).map Engine.keyValid == some false) = true := by
  decide +kernel

/-- OtherInstancesUntouched: an instance that does change. -/
theorem witness_instance_changes :
    after (step (writing (engineIn .idle 0 true true) 1#32))
      (fun t => decide (t.engines[1]? ≠ some (slotOf (engineIn .idle 0 true true)))) = true := by
  decide +kernel

/-- StepKeepsInvariant and StepKeepsKeyStoreSound: the reset state, with an engine's turn. -/
theorem witness_invariants :
    ({ State.reset with turns := [.engine 0] } : State).Inv ∧
    (∀ x ∈ ({ State.reset with turns := [.engine 0] } : State).engines, x.eng.KeyStoreSound) ∧
    ∃ t, step { State.reset with turns := [.engine 0] } = .next t := by
  refine ⟨by decide +kernel, fun x hx => ?_, _, rfl⟩
  rcases List.mem_singleton.1 hx with rfl
  exact ⟨fun h => (Bool.false_ne_true h).elim, fun h => (Phase.noConfusion h)⟩

/-- KschedRunUnderInterleaving and BlockRunUnderInterleaving: a command just accepted and fifteen steps with a host write
in between. -/
theorem witness_runs :
    let ts := Agent.host :: List.replicate 15 (Agent.engine 1)
    ts.count (.engine 1) = 15 ∧ Agent.reset 1 ∉ ts ∧
    (engineIn .ksched 0 false false).c = permute 28 pc1C 0#64 ∧ (engineIn .ksched 0 false false).d = permute 28 pc1D 0#64 ∧
    (engineIn .block 0 true false).l = (permute 64 ip 0#64 : Block).extractLsb' 32 32 ∧
    (engineIn .block 0 true false).r = (permute 64 ip 0#64 : Block).extractLsb' 0 32 ∧
    after ((bench (engineIn .ksched 0 false false) [] [.bus (.write 0x88 32 7#32)]).runTurns (ts ++ [.engine 1]))
      (fun t => statusOf t == some 0x00000002#32) = true ∧
    after ((bench (engineIn .block 0 true false) [] [.bus (.write 0x90 32 7#32)]).runTurns (ts ++ [.engine 1]))
      (fun t => statusOf t == some 0x00000006#32) = true := by
  decide +kernel

/-- CollapsedCommandAgrees, with each kind of command accepted, and BlockIndependence. -/
theorem witness_idle_selected :
    (bench (engineIn .idle 0 true false) [] []).engines[1]? = some (slotOf (engineIn .idle 0 true false)) ∧
    (engineIn .idle 0 true false).phase = .idle ∧
    (engineIn .idle 0 true false).rk = (engineIn .idle 0 true true).rk ∧
    (engineIn .idle 0 true false).din = (engineIn .idle 0 true true).din := by
  decide +kernel

/-- A host with nothing to do keeps having nothing to do, and every move goes through. -/
theorem idle_host_runs (ts : List Agent) (s : State) (h : s.prog = []) :
    ∃ t, s.runTurns ts = .next t ∧ t.prog = [] := by
  induction ts generalizing s with
  | nil => exact ⟨_, rfl, h⟩
  | cons a ts ih =>
    rw [runTurns_cons]
    cases a with
    | host => simpa [advance, hostTurn, h] using ih s h
    | engine k => exact ih (s.updAt k engineStep) h
    | reset k => exact ih (s.updAt k fun _ => Engine.reset) h

/-- FairCommandCompletes: a busy engine under the schedule that always gives it the turn. -/
theorem witness_fair :
    let s := bench (engineIn .ksched 0 false false) [] []
    s.engines[1]? = some (slotOf (engineIn .ksched 0 false false)) ∧ WeaklyFair 1 (fun _ => .engine 1) s ∧
    (∀ n : Nat, (fun _ => Agent.engine 1 : Nat → Agent) n ≠ .reset 1) ∧
    (∀ n, ∃ t, s.runTurns (firstTurns (fun _ => .engine 1) n) = .next t) := by
  refine ⟨rfl, fun n _ => ⟨n, Nat.le_refl n, rfl⟩, fun n h => Agent.noConfusion h, fun n => ?_⟩
  obtain ⟨t, ht, -⟩ := idle_host_runs (firstTurns (fun _ => .engine 1) n) (bench (engineIn .ksched 0 false false) [] []) rfl
  exact ⟨t, ht⟩

/-- FairCommandCompletes, the WAIT: a host that waits for a busy engine, the two moving in turn. -/
theorem witness_wait :
    let s := bench (engineIn .ksched 0 false false) [] (expandPseudo 0x80 .wait)
    let sched : Nat → Agent := fun n => if n % 2 = 0 then .host else .engine 1
    s.PlatformOk ∧ s.engines[1]? = some (slotOf (engineIn .ksched 0 false false)) ∧
    s.prog = expandPseudo (slotOf (engineIn .ksched 0 false false)).base .wait ++ [] ∧ WeaklyFair 1 sched s ∧
    HostKeepsMoving sched :=
  ⟨bench_ok _ _ _, rfl, rfl, fun n _ => ⟨2 * n + 1, by omega, if_neg (by omega)⟩,
    fun n => ⟨2 * n, by omega, if_pos (by omega)⟩⟩

/-- PermuteSelectsPositions at both ends of E, ParityBitsIgnored on all parity bits, NetworkInverse on one round. -/
theorem witness_cipher :
    expansion.length = 48 ∧ 1 ≤ 1 ∧ 48 ≤ 48 ∧ (0x0101010101010101#64 : Block) &&& 0xFEFEFEFEFEFEFEFE#64 = 0#64 ∧
    feistelRound (0xCC00CCFF#32, 0xF0AAF0AA#32) 0x1B02EFFC7072#48 = (0xF0AAF0AA#32, 0xEF4A6544#32) := by
  decide +kernel

/-- CapacityErrorFirst: one byte short of one block. -/
theorem witness_capacity :
    ({ callOn [] with cap := 7 } : Call).cap < paddedLength (callOn []).length ∧
    (bench Engine.reset [.host] [.transform { callOn [] with cap := 7 }]).turns = .host :: [] := by
  decide +kernel

/-- PartialOverlapRefused: buffers that overlap by one byte on either side, equal ones, and ones that just touch. -/
theorem witness_overlap :
    (∀ out ∈ [93, 107], out ≠ 100 ∧ 100 < out + paddedLength 5 ∧ out < 100 + paddedLength 5) ∧
    (∀ out ∈ [92, 100, 108], out = 100 ∨ out + paddedLength 5 ≤ 100 ∨ 100 + paddedLength 5 ≤ out) ∧
    paddedLength (callOn []).length ≤ (callOn []).cap := by
  decide

/-- TransformBlockBytes and TransformFrame: a call that returns, with its first and only block. -/
theorem witness_transform :
    (∃ m', transform (callOn []) (fun _ => 0#8) inputMem = .next (.returned 8, m')) ∧
    paddedLength (callOn []).length ≤ (callOn []).cap ∧ 8 * 0 + 8 ≤ paddedLength (callOn []).length :=
  ⟨⟨_, rfl⟩, by decide, by decide⟩

/-- TransformRoundTrip: one whole block there and back, in place the second time. -/
theorem witness_round_trip :
    let c := { callOn [] with length := 8 }
    c.length % 8 = 0 ∧ c.length ≤ c.cap ∧ (∀ i, i < c.length → (inputMem.read (c.inp + i)).isSome = true) ∧
    (match transform { c with dir := .enc } (fun _ => 0#8) inputMem with
      | .next (_, m1) =>
        (match transform { c with dir := .dec, inp := c.out, out := c.out, cap := 8 } (fun _ => 0#8) m1 with
          | .next (_, m2) => m2.read 500 == some 0x01#8
          | _ => false)
      | _ => false) = true := by
  decide +kernel

/-- PollLoops and PseudoInstructions: a poll that stays, one that goes on, and a CHECK that fails and one that passes. -/
theorem witness_poll_and_check :
    (match busRead 0x84 32 (bench (engineIn .ksched 0 false false) [.host] [.poll 0x84 1#32 0#32]) with
      | .ok w => decide (w &&& 1#32 ≠ 0#32)
      | .error _ => false) = true ∧
    (match busRead 0x84 32 (bench (engineIn .idle 0 true false) [.host] [.poll 0x84 1#32 0#32]) with
      | .ok w => decide (w &&& 1#32 = 0#32) && decide (w &&& 0x00070000#32 = 0#32)
      | .error _ => false) = true ∧
    (match busRead 0x84 32 (bench { Engine.reset with errNokey := true } [.host] (expandPseudo 0x80 .check)) with
      | .ok w => decide (w &&& 0x00070000#32 ≠ 0#32)
      | .error _ => false) = true := by
  decide +kernel

/-- TransformOnEngineAgrees and TransformOnEngineFinishes: a call on the one instance after reset, on a whole block, that
runs to its end. -/
theorem witness_transform_on_engine :
    let c := { callOn [] with length := 8 }
    let s := { State.reset with mem := inputMem, prog := [.transform c] }
    let ts := (List.replicate 60 [Agent.host, .engine 0]).flatten
    s.PlatformOk ∧ s.engines[0]? = some { base := 0, eng := Engine.reset } ∧ c.unit = 0 ∧ c.more = [] ∧
    s.failed = false ∧ Engine.reset.phase = .idle ∧
    (Engine.reset.errCmd, Engine.reset.errBusy, Engine.reset.errNokey) = (false, false, false) ∧
    (∀ a ∈ ts, a = .host ∨ a = .engine 0) ∧
    (match transform c (Config.padDraw s.padDraws) s.mem with
      | .next (r, _) => decide (r = .returned 8)
      | _ => false) = true ∧
    after (s.runTurns ts) (fun t => decide (t.prog = []) && decide (t.result = some (.returned 8)) &&
      t.mem.read 500 == some 0x85#8 && t.mem.read 507 == some 0x05#8 && !t.failed) = true := by
  decide +kernel

end Sys2Proof.Tests
end

section
/-!
SUPPORT. The STATUS word field by field (`10_state.md` R34), and the register map at its offset.
-/

namespace Sys2Proof.Machine

theorem busy_eq_decide (e : Engine) : e.busy = decide (e.phase ≠ .idle) := by
  rw [Bool.eq_iff_iff, busy_iff, decide_eq_true_iff]

theorem dirBit_getLsbD_zero (d : Dir) : (dirBit d).getLsbD 0 = decide (d = .dec) := by
  cases d <;> rfl

/-- The one-bit fields of STATUS. -/
theorem statusWord_flags (e : Engine) :
    (statusWord e).getLsbD 0 = e.busy ∧
    (statusWord e).getLsbD 1 = e.keyValid ∧
    (statusWord e).getLsbD 2 = e.done ∧
    (statusWord e).getLsbD 3 = (dirBit e.dirn).getLsbD 0 ∧
    (statusWord e).getLsbD 16 = e.errCmd ∧
    (statusWord e).getLsbD 17 = e.errBusy ∧
    (statusWord e).getLsbD 18 = e.errNokey := by
  simp only [statusWord, BitVec.getLsbD_setWidth, BitVec.getLsbD_append, BitVec.getLsbD_ofBool]
  simp

/-- The wider fields of STATUS and the two reserved fields between them: each is one operand of the concatenation. -/
theorem statusWord_fields (e : Engine) :
    (statusWord e).extractLsb' 4 2 = phaseBits e.phase ∧
    (statusWord e).extractLsb' 6 2 = 0#2 ∧
    (statusWord e).extractLsb' 8 4 = e.cnt ∧
    (statusWord e).extractLsb' 12 4 = 0#4 := by
  simp (disch := omega) only [statusWord, BitVec.extractLsb'_setWidth_of_le, BitVec.extractLsb'_append_eq_of_le,
    BitVec.extractLsb'_append_eq_of_add_le, Nat.reduceSub, BitVec.extractLsb'_eq_self, and_self]

/-- The reserved field above the error flags: the concatenation is 19 bits wide, and the word is it extended by zeros. -/
theorem statusWord_top (e : Engine) : (statusWord e).extractLsb' 19 13 = 0#13 := by
  ext i hi
  simp [statusWord]

theorem readReg_status (e : Engine) : readReg 0x04 e = statusWord e := rfl

theorem writeReg_status (v : Word) (e : Engine) : writeReg 0x04 v e = e := rfl

theorem statusWord_reset : statusWord Engine.reset = 0x00000000#32 := by decide

/-- Settles O21: the fields one by one, then the register map at the offset of STATUS. -/
theorem statusLayout : Obligations.StatusLayout := by
  unfold Obligations.StatusLayout
  refine ⟨fun e => ?layout, fun e v => writeReg_status v e, statusWord_reset, fun s k x ts rest hpf hx ht hp => ?read⟩
  case layout =>
    obtain ⟨hbusy, hkeyValid, hdone, hdir, herrCmd, herrBusy, herrNokey⟩ := statusWord_flags e
    obtain ⟨hphase, hreserved6, hcnt, hreserved12⟩ := statusWord_fields e
    refine ⟨hbusy.trans (busy_eq_decide e), hkeyValid, hdone, hdir.trans (dirBit_getLsbD_zero e.dirn), ?_, hreserved6,
      hcnt, hreserved12, herrCmd, herrBusy, herrNokey, statusWord_top e⟩
    rw [hphase]
    cases e.phase <;> rfl
  case read =>
    rw [← readReg_status]
    exact step_read hpf hx (by decide) (by decide) ht hp

end Sys2Proof.Machine
end

section
/-!
SUPPORT. The register map offset by offset (`20_memory.md` R51, R53 to R55), and one host access by its kind:
refused, a write to CTRL, a write to any other offset (R52, R54). A permitted read is `step_read`.
-/

namespace Sys2Proof.Machine

/-! ReadReg: the registers that hold a value, and 0 everywhere else. -/

theorem readReg_dinHi (e : Engine) : readReg 0x10 e = e.din.extractLsb' 32 32 := rfl

theorem readReg_dinLo (e : Engine) : readReg 0x14 e = e.din.extractLsb' 0 32 := rfl

theorem readReg_doutHi (e : Engine) : readReg 0x18 e = e.dout.extractLsb' 32 32 := rfl

theorem readReg_doutLo (e : Engine) : readReg 0x1C e = e.dout.extractLsb' 0 32 := rfl

theorem readReg_id (e : Engine) : readReg 0x20 e = 0x44455301#32 := rfl

/-- Write-only registers and reserved offsets read 0 (`20_memory.md` R53, R54). -/
theorem readReg_of_not_readable {off : Nat} (e : Engine)
    (h : off ≠ 0x04 ∧ off ≠ 0x10 ∧ off ≠ 0x14 ∧ off ≠ 0x18 ∧ off ≠ 0x1C ∧ off ≠ 0x20) :
    readReg off e = 0x00000000#32 := by
  simp [readReg, h]

/-! WriteReg: the four halves that a write stores, and nothing everywhere else. -/

theorem writeReg_keyHi (v : Word) (e : Engine) :
    writeReg 0x08 v e = { e with key := v ++ e.key.extractLsb' 0 32 } := rfl

theorem writeReg_keyLo (v : Word) (e : Engine) :
    writeReg 0x0C v e = { e with key := e.key.extractLsb' 32 32 ++ v } := rfl

theorem writeReg_dinHi (v : Word) (e : Engine) :
    writeReg 0x10 v e = { e with din := v ++ e.din.extractLsb' 0 32 } := rfl

theorem writeReg_dinLo (v : Word) (e : Engine) :
    writeReg 0x14 v e = { e with din := e.din.extractLsb' 32 32 ++ v } := rfl

/-- A write to a read-only register or a reserved offset is ignored (`20_memory.md` R53, R54). -/
theorem writeReg_of_not_writable {off : Nat} (v : Word) (e : Engine)
    (h : off ≠ 0x08 ∧ off ≠ 0x0C ∧ off ≠ 0x10 ∧ off ≠ 0x14) : writeReg off v e = e := by
  simp [writeReg, h]

/-! One access of a window. -/

theorem State.resolve_refused {s : State} {k off width : Nat} {x : Slot} (hpf : s.PlatformOk)
    (hx : s.engines[k]? = some x) (hoff : off < 64) (hbad : width ≠ 32 ∨ off % 4 ≠ 0) :
    s.resolve (x.base + off) width = .error (.busError off) :=
  (State.resolve_of_slot hpf hx hoff).trans (if_pos hbad)

theorem step_read_refused {s : State} {k off width : Nat} {x : Slot} {ts : List Agent} {rest : List HostStmt}
    (hpf : s.PlatformOk) (hx : s.engines[k]? = some x) (hoff : off < 64) (hbad : width ≠ 32 ∨ off % 4 ≠ 0)
    (ht : s.turns = .host :: ts) (hp : s.prog = .bus (.read (x.base + off) width) :: rest) :
    step s = .fault (.busError off) := by
  rw [step_host ht hp]
  have h : busRead (x.base + off) width { s with turns := ts, prog := rest } = .error (.busError off) :=
    busRead_error (State.resolve_refused hpf hx hoff hbad)
  simp only [hostStmt, h]

theorem step_write_refused {s : State} {k off width : Nat} {x : Slot} {v : Word} {ts : List Agent}
    {rest : List HostStmt} (hpf : s.PlatformOk) (hx : s.engines[k]? = some x) (hoff : off < 64)
    (hbad : width ≠ 32 ∨ off % 4 ≠ 0) (ht : s.turns = .host :: ts)
    (hp : s.prog = .bus (.write (x.base + off) width v) :: rest) : step s = .fault (.busError off) :=
  (step_host ht hp).trans (busWrite_error v (State.resolve_refused hpf hx hoff hbad))

/-- A write to CTRL runs the dispatch on the instance of the window (`20_memory.md` R54). -/
theorem step_write_ctrl {s : State} {k off : Nat} {x : Slot} {v : Word} {ts : List Agent} {rest : List HostStmt}
    (hpf : s.PlatformOk) (hx : s.engines[k]? = some x) (hctrl : off = 0x00) (ht : s.turns = .host :: ts)
    (hp : s.prog = .bus (.write (x.base + off) 32 v) :: rest) :
    step s = dispatch v { s with turns := ts, prog := rest, sel := k } := by
  subst hctrl
  rw [step_write hpf hx (by decide) (by decide) ht hp, dispatch_eq]
  exact congrArg Host.Outcome.next
    (State.updSel_eq_putEngine (s := { s with turns := ts, prog := rest, sel := k }) hx (dispatchEffect v)).symm

theorem writeEffect_of_ne_ctrl {off : Nat} (v : Word) (h : off ≠ 0x00) : writeEffect off v = writeReg off v :=
  if_neg h

/-- A write to any other offset does WriteReg to the one engine (`20_memory.md` R54). -/
theorem step_write_register {s : State} {k off : Nat} {x : Slot} {v : Word} {ts : List Agent} {rest : List HostStmt}
    (hpf : s.PlatformOk) (hx : s.engines[k]? = some x) (hoff : off < 64) (h4 : off % 4 = 0) (hne : off ≠ 0x00)
    (ht : s.turns = .host :: ts) (hp : s.prog = .bus (.write (x.base + off) 32 v) :: rest) :
    step s = .next (({ s with turns := ts, prog := rest, sel := k } : State).putEngine k x (writeReg off v x.eng)) := by
  rw [step_write hpf hx hoff h4 ht hp, writeEffect_of_ne_ctrl v hne]

/-- Settles O18: a permitted access is `readReg`, the dispatch or `writeReg`, and the register map gives these offset by
offset. -/
theorem registerMap : Obligations.RegisterMap := by
  unfold Obligations.RegisterMap
  intro s k x off v ts rest hpf hx hoff h4 ht
  refine ⟨fun hp => ?read, fun hp => ⟨fun hctrl => step_write_ctrl hpf hx hctrl ht hp, fun hne => ?write⟩⟩
  case read =>
    rw [step_read hpf hx hoff h4 ht hp]
    split
    · rw [readReg_status]
    · rw [readReg_dinHi]
    · rw [readReg_dinLo]
    · rw [readReg_doutHi]
    · rw [readReg_doutLo]
    · rw [readReg_id]
    · next hstatus hdinHi hdinLo hdoutHi hdoutLo hid =>
      rw [readReg_of_not_readable x.eng ⟨hstatus, hdinHi, hdinLo, hdoutHi, hdoutLo, hid⟩]
  case write =>
    rw [step_write_register hpf hx hoff h4 hne ht hp]
    split
    · rw [writeReg_keyHi]
    · rw [writeReg_keyLo]
    · rw [writeReg_dinHi]
    · rw [writeReg_dinLo]
    · next hkeyHi hkeyLo hdinHi hdinLo => rw [writeReg_of_not_writable v x.eng ⟨hkeyHi, hkeyLo, hdinHi, hdinLo⟩]

/-- Settles O19: the access is refused by `State.resolve`, or it is one of the three permitted kinds. -/
theorem badAccessIsBusError : Obligations.BadAccessIsBusError := by
  unfold Obligations.BadAccessIsBusError
  intro s k x off width v ts rest hpf hx hoff ht
  refine ⟨fun hbad hp => ?refused, ?permitted⟩
  case refused =>
    rcases hp with hp | hp
    · exact step_read_refused hpf hx hoff hbad ht hp
    · exact step_write_refused hpf hx hoff hbad ht hp
  case permitted =>
    rintro rfl h4
    exact ⟨step_read hpf hx hoff h4 ht, fun hp => ⟨fun hctrl => step_write_ctrl hpf hx hctrl ht hp,
      fun hne => step_write_register hpf hx hoff h4 hne ht hp⟩⟩

end Sys2Proof.Machine
end

section
/-!
SUPPORT. The decoder against the encoder (`30_encoding.md` R82, R84): a word is the word of a command or reserved, and it
decodes to a command exactly where it is that command's word.
-/

namespace Sys2Proof

@[simp] theorem decode_encode (i : Instr) : decode (encode i) = .cmd i := by
  cases i <;> rfl

/-- Every word is the word of a command, or it is reserved and kept whole. -/
theorem eq_encode_or_decode_eq_reserved (w : Word) : (∃ i, w = encode i) ∨ decode w = .reserved w := by
  unfold decode
  split_ifs with hnop hksched henc hdec hclr
  · exact .inl ⟨.nop, hnop⟩
  · exact .inl ⟨.ksched, hksched⟩
  · exact .inl ⟨.enc, henc⟩
  · exact .inl ⟨.dec, hdec⟩
  · exact .inl ⟨.clr, hclr⟩
  · exact .inr rfl

theorem decode_eq_cmd_iff {w : Word} {i : Instr} : decode w = .cmd i ↔ w = encode i := by
  refine ⟨fun h => ?_, fun h => h ▸ decode_encode i⟩
  obtain ⟨j, rfl⟩ | hreserved := eq_encode_or_decode_eq_reserved w
  · exact congrArg encode (Decoded.cmd.inj ((decode_encode j).symm.trans h))
  · cases hreserved.symm.trans h

/-- Settles O1: each row of the map is `decode_eq_cmd_iff` at one command, whose word `encode` computes. -/
theorem opcodeMapExact : Obligations.OpcodeMapExact := by
  unfold Obligations.OpcodeMapExact
  intro w
  exact ⟨decode_eq_cmd_iff, decode_eq_cmd_iff, decode_eq_cmd_iff, decode_eq_cmd_iff, decode_eq_cmd_iff,
    rfl, rfl, rfl, rfl, rfl⟩

end Sys2Proof
end

section
/-!
SUPPORT. Permute bit by bit (`40_tables.md` R100): the fold is a word of table entries, the last one in bit 0.
-/

namespace Sys2Proof.Machine

/-- Bit `i` of Permute counts the table from its end, where R100 counts DES positions from its start. -/
theorem getLsbD_permute {n m i : Nat} {table : List Nat} (hlen : table.length = m) (hi : i < m) (v : BitVec n) :
    (permute m table v).getLsbD i = v.getLsbD (n - table[m - 1 - i]) := by
  subst hlen
  rw [permute, BitVec.getLsbD_ofNat, foldl_bits_testBit (fun p => v.getLsbD (n - p)), dif_pos hi, decide_eq_true hi,
    Bool.true_and]

/-- Settles O38: DES position `j` of the result is its bit `m - j`, and entry `m - 1 - (m - j)` of the table is `T[j]`. -/
theorem permuteSelectsPositions : Obligations.PermuteSelectsPositions := by
  unfold Obligations.PermuteSelectsPositions
  intro n m table v j hlen h1 hj
  have hentry : m - 1 - (m - j) = j - 1 := by omega
  simpa only [hentry] using getLsbD_permute hlen (show m - j < m by omega) v

end Sys2Proof.Machine
end

section
/-!
SUPPORT. One engine step of KSCHED (`41_key_schedule.md` R146, R147) in the terms of R110 and R140.
-/

namespace Sys2Proof.Machine

theorem shiftAmount_eq_ite_mem (i : Nat) : shiftAmount i = if i ∈ [0, 1, 8, 15] then 1 else 2 := by
  simp [shiftAmount]

/-- The round key of round `i` is PC-2 of the two halves after that round's rotation (`41_key_schedule.md` R140). -/
theorem contract_rotateHalves (i : Nat) (c d : KeyHalf) :
    contract (rotateHalves i (c, d)) = permute 48 pc2 (rotl28 c (shiftAmount i) ++ rotl28 d (shiftAmount i)) := rfl

/-- Settles O13: the turn puts `engineStep` of the one engine back, and that is the counting or the completing step of
KSCHED as CNT is 15 or not. -/
theorem kschedEngineStep : Obligations.KschedEngineStep := by
  unfold Obligations.KschedEngineStep
  intro s k x ts ht hx hphase c d hc hd
  rw [← shiftAmount_eq_ite_mem] at hc hd
  subst hc hd
  refine ⟨fun hcnt => ?counts, fun hcnt => ?completes⟩
  case counts => rw [step_engine ht hx, engineStep_ksched hphase hcnt, contract_rotateHalves]
  case completes => rw [step_engine ht hx, engineStep_ksched_last hphase hcnt, contract_rotateHalves]

end Sys2Proof.Machine
end

section
/-!
SUPPORT. One engine step of ENC or DEC (`43_block_network.md` R187, R188) in the terms of R181 and R182.
-/

namespace Sys2Proof.Machine

/-- For a round of the network the read of RK is in bounds, so KeyFor is R181's entry in either direction. -/
theorem keyFor_eq_ite (rk : Vector RoundKey 16) (dir : Dir) {r : Nat} (hr : r < 16) :
    keyFor rk dir r = if dir = .enc then rk[r] else rk[15 - r] := by
  cases dir with
  | enc => exact (rkEntry_of_lt rk r hr).trans (if_pos rfl).symm
  | dec => exact (rkEntry_of_lt rk (15 - r) (by omega)).trans (if_neg (by decide)).symm

/-- The output is FP of the two halves in swapped order (`43_block_network.md` R182). -/
theorem blockOutput_eq (l r : Half) : blockOutput (l, r) = permute 64 fp (r ++ l) := rfl

/-- Settles O14: the turn puts `engineStep` of the one engine back, and that is the counting or the completing step of
BLOCK as CNT is 15 or not. -/
theorem blockEngineStep : Obligations.BlockEngineStep := by
  unfold Obligations.BlockEngineStep
  intro s k x ts ht hx hphase key r' hkey hr'
  rw [← keyFor_eq_ite x.eng.rk x.eng.dirn x.eng.cnt.isLt] at hkey
  subst hkey hr'
  refine ⟨fun hcnt => ?counts, fun hcnt => ?completes⟩
  case counts => rw [step_engine ht hx, engineStep_block hphase hcnt]
  case completes => rw [step_engine ht hx, engineStep_block_last hphase hcnt, blockOutput_eq]

end Sys2Proof.Machine
end

section
/-!
SUPPORT. The dispatch of a CTRL write as one function of the word and the engine, in the order of the checks of
`44_control_commands.md` R200, and NOP and CLR on it (R201, R202).
-/

namespace Sys2Proof.Machine

/-! Reserved words. -/

theorem properWord (i : Instr) : Laws.ProperWord.Statement i := by
  cases i with
  | nop => exact Laws.ProperWord.nop
  | ksched => exact Laws.ProperWord.ksched
  | enc => exact Laws.ProperWord.enc
  | dec => exact Laws.ProperWord.dec
  | clr => exact Laws.ProperWord.clr

/-- A set RSVD bit makes a word reserved (`30_encoding.md` R81). -/
theorem decode_eq_reserved_of_rsvd {w : Word} (h : w.extractLsb' 4 28 ≠ 0#28) : decode w = .reserved w := by
  obtain ⟨i, rfl⟩ | hreserved := eq_encode_or_decode_eq_reserved w
  · obtain ⟨-, -, hrsvd⟩ := properWord i
    exact absurd hrsvd h
  · exact hreserved

/-- Every word below 5 is the word of a command. -/
theorem five_le_toNat_of_reserved {w : Word} (h : decode w = .reserved w) : 5 ≤ w.toNat := by
  have hne : ∀ i, w ≠ encode i := by
    rintro i rfl
    cases (decode_encode i).symm.trans h
  have hnop : w ≠ 0#32 := hne .nop
  have hksched : w ≠ 1#32 := hne .ksched
  have henc : w ≠ 2#32 := hne .enc
  have hdec : w ≠ 3#32 := hne .dec
  have hclr : w ≠ 4#32 := hne .clr
  bv_omega

theorem dispatch_of_reserved {w : Word} {s : State} (h : decode w = .reserved w) :
    dispatch w s = .next (s.updSel (Engine.raise .cmd)) := by
  simp only [dispatch, h]

/-! The dispatch. -/

theorem writeEffect_ctrl (w : Word) : writeEffect 0x00 w = dispatchEffect w := rfl

/-- Each case of `dispatchEffect_cases` is one branch of the checks, taken in the order of R200. -/
theorem dispatchEffect_eq_ite (w : Word) (e : Engine) :
    dispatchEffect w e =
      if 5 ≤ w.toNat then e.raise .cmd
      else if w = 0#32 then e
      else if e.phase ≠ .idle then e.raise .busy
      else if (w = 2#32 ∨ w = 3#32) ∧ e.keyValid = false then e.raise .nokey
      else if w = 1#32 then kschedAccept e
      else if w = 2#32 then blockAccept .enc e
      else if w = 3#32 then blockAccept .dec e
      else e.acknowledge := by
  obtain ⟨hreserved, h⟩ | ⟨rfl, h⟩ | ⟨hp, hw, h⟩ | ⟨hp, hk, hw, h⟩ | ⟨hp, rfl, h⟩ | ⟨hp, hk, rfl, h⟩ |
    ⟨hp, hk, rfl, h⟩ | ⟨hp, rfl, h⟩ := dispatchEffect_cases w e
  · rw [h, if_pos (five_le_toNat_of_reserved hreserved)]
  · simp [h]
  · obtain rfl | rfl | rfl | rfl := hw <;> simp [h, hp]
  · obtain rfl | rfl := hw <;> simp [h, hp, hk]
  · simp [h, hp]
  · simp [h, hp, hk]
  · simp [h, hp, hk]
  · simp [h, hp]

/-- Settles O7: the write runs the dispatch on the engine of the window, whose acceptances written out are those of
R145, R185, R186 and R202. -/
theorem ctrlWriteDispatch : Obligations.CtrlWriteDispatch := by
  unfold Obligations.CtrlWriteDispatch
  intro s k x w ts rest hpf hx ht hp
  rw [step_write (off := 0x00) hpf hx (by decide) (by decide) ht hp, writeEffect_ctrl, dispatchEffect_eq_ite]
  rfl

/-! NOP. -/

theorem exec_nop (s : State) : exec .nop s = .next s := rfl

/-- Settles O8: `execNop` answers its state, and a word with a RSVD bit set is reserved, whose dispatch sets ERR_CMD. -/
theorem nopChangesNothing : Obligations.NopChangesNothing := by
  unfold Obligations.NopChangesNothing
  refine ⟨exec_nop, decode_encode .nop, fun w _ hrsvd => ?_⟩
  have hreserved := decode_eq_reserved_of_rsvd hrsvd
  refine ⟨hreserved, fun s x hx => ?_⟩
  rw [dispatch_of_reserved hreserved, State.updSel_eq_putEngine hx]
  rfl

/-! CLR. -/

/-- A command changes the engine it is written to by its effect, and nothing else. -/
theorem exec_of_slot {s : State} {x : Slot} (i : Instr) (hx : s.engines[s.sel]? = some x) :
    exec i s = .next (s.putEngine s.sel x (commandEffect i x.eng)) := by
  rw [exec_eq, State.updSel_eq_putEngine hx]

theorem exec_clr_idle {s : State} {x : Slot} (hx : s.engines[s.sel]? = some x) (h : x.eng.phase = .idle) :
    exec .clr s = .next (s.putEngine s.sel x x.eng.acknowledge) := by
  rw [exec_of_slot .clr hx, commandEffect, commandGate_accept false _ h nofun]

theorem exec_clr_busy {s : State} {x : Slot} (hx : s.engines[s.sel]? = some x) (h : x.eng.phase ≠ .idle) :
    exec .clr s = .next (s.putEngine s.sel x (x.eng.raise .busy)) := by
  rw [exec_of_slot .clr hx, commandEffect, commandGate_busy false _ h]

/-- An acknowledgement masks DONE and the error flags out of STATUS and leaves every other field (`10_state.md` R34). -/
theorem statusWord_acknowledge (e : Engine) : statusWord e.acknowledge = statusWord e &&& 0x0000FFFB#32 := by
  have hmask : 0x0000FFFB#32 =
      (0#1 ++ 0#1 ++ 0#1 ++ BitVec.allOnes 4 ++ BitVec.allOnes 4 ++ BitVec.allOnes 2 ++ BitVec.allOnes 2
        ++ BitVec.allOnes 1 ++ 0#1 ++ BitVec.allOnes 1 ++ BitVec.allOnes 1).setWidth 32 := by
    decide
  simp only [hmask, statusWord, ← BitVec.setWidth_and, BitVec.and_append, BitVec.and_allOnes, BitVec.and_zero]
  rfl

/-- Settles O12: CLR passes the gate without a key, so PHASE alone decides; the mask of `statusWord_acknowledge` gives
the worked example, whose BUSY is 0. -/
theorem clrCommand : Obligations.ClrCommand := by
  unfold Obligations.ClrCommand
  intro s x hx
  refine ⟨exec_clr_idle hx, exec_clr_busy hx, decode_encode .clr, fun hstatus => ?workedExample⟩
  have hidle : x.eng.phase = .idle := (statusWord_wait x.eng).1 (by rw [hstatus]; decide)
  obtain ⟨y, hy, hyeng⟩ := State.slot_of_engineAt (State.engineAt_putEngine_same hx x.eng.acknowledge)
  refine ⟨_, y, exec_clr_idle hx hidle, hy, ?_⟩
  rw [hyeng, statusWord_acknowledge, hstatus]
  decide

end Sys2Proof.Machine
end

section
/-!
SUPPORT. The padded length (`45_host_transform.md` R221) and the capacity check that a call makes first (R222).
-/

namespace Sys2Proof.Machine

/-! PaddedLength. -/

theorem paddedLength_of_mod_eq_zero {n : Nat} (h : n % 8 = 0) : paddedLength n = n := if_pos h

theorem paddedLength_of_mod_ne_zero {n : Nat} (h : n % 8 ≠ 0) : paddedLength n = n + 8 - n % 8 := if_neg h

theorem paddedLength_mod_eight (n : Nat) : paddedLength n % 8 = 0 := by
  by_cases h : n % 8 = 0
  · rw [paddedLength_of_mod_eq_zero h, h]
  · rw [paddedLength_of_mod_ne_zero h]
    omega

theorem le_paddedLength (n : Nat) : n ≤ paddedLength n := by
  by_cases h : n % 8 = 0
  · exact (paddedLength_of_mod_eq_zero h).ge
  · rw [paddedLength_of_mod_ne_zero h]
    omega

theorem paddedLength_lt_add_eight (n : Nat) : paddedLength n < n + 8 := by
  by_cases h : n % 8 = 0
  · rw [paddedLength_of_mod_eq_zero h]
    omega
  · rw [paddedLength_of_mod_ne_zero h]
    omega

/-- Settles O50: the two cases of the definition, the bounds that follow from them, and the corner cases computed. -/
theorem paddedLengthRule : Obligations.PaddedLengthRule := by
  unfold Obligations.PaddedLengthRule
  exact ⟨fun _ => ⟨paddedLength_of_mod_eq_zero, paddedLength_of_mod_ne_zero⟩,
    fun n => ⟨paddedLength_mod_eight n, le_paddedLength n, paddedLength_lt_add_eight n⟩, by decide⟩

/-! The capacity check. -/

theorem transform_of_cap_lt {c : Call} (h : c.cap < paddedLength c.length) (pad : Nat → Byte) (m : Memory) :
    transform c pad m = .next (.capacityError (paddedLength c.length) c.cap, m) := if_pos h

theorem hostStmt_transform_of_cap_lt {c : Call} (h : c.cap < paddedLength c.length) (s : State) :
    hostStmt (.transform c) s = .next { s with result := some (.capacityError (paddedLength c.length) c.cap) } :=
  if_pos h

/-- Settles O52: the check is the first branch of the pure procedure and of the host's statement, which the host's turn
runs on the state without that statement. -/
theorem capacityErrorFirst : Obligations.CapacityErrorFirst := by
  unfold Obligations.CapacityErrorFirst
  intro c hcap
  refine ⟨transform_of_cap_lt hcap, fun s ts rest ht hp => ?_⟩
  rw [step_host ht hp, hostStmt_transform_of_cap_lt hcap]

end Sys2Proof.Machine
end

section
/-!
SUPPORT. A reset of an instance (`70_reset_and_hazards.md` R270).
-/

namespace Sys2Proof.Machine

/-- Settles O16: the turn puts `Engine.reset` back whatever the engine was, and its fields are the reset values. -/
theorem resetClearsInstance : Obligations.ResetClearsInstance := by
  unfold Obligations.ResetClearsInstance
  intro s k x ts ht hx
  rw [step_reset ht hx, Engine.reset]

end Sys2Proof.Machine
end

section
/-!
SUPPORT. The rotations of the key schedule (`40_tables.md` R102, R110, `41_key_schedule.md` R141, R144): every round
rotates both halves one bit at a time, and 28 single rotations are none.
-/

namespace Sys2Proof.Machine

/-- A 28-bit half rotated left by one bit, `n` times. -/
def rotateOnes (n : Nat) (h : KeyHalf) : KeyHalf := (fun x => rotl28 x 1)^[n] h

theorem rotateOnes_add (m n : Nat) (h : KeyHalf) : rotateOnes (m + n) h = rotateOnes n (rotateOnes m h) := by
  rw [Nat.add_comm]
  exact Function.iterate_add_apply ..

/-- Bit `i` after a rotation by one is the bit below it, bit 27 below bit 0. -/
theorem getLsbD_rotl28_one (x : KeyHalf) {i : Nat} (hi : i < 28) :
    (rotl28 x 1).getLsbD i = x.getLsbD ((i + 27) % 28) := by
  simp only [rotl28, BitVec.getLsbD_or, BitVec.getLsbD_shiftLeft, BitVec.getLsbD_ushiftRight, hi, decide_true,
    Bool.true_and]
  by_cases h0 : i = 0
  · simp [h0]
  · have hmod : (i + 27) % 28 = i - 1 := by omega
    have hhigh : x.getLsbD (28 - 1 + i) = false := BitVec.getLsbD_of_ge x _ (by omega)
    simp [hmod, hhigh, h0]

theorem getLsbD_rotateOnes (n : Nat) (x : KeyHalf) {i : Nat} (hi : i < 28) :
    (rotateOnes n x).getLsbD i = x.getLsbD ((i + 27 * n) % 28) := by
  induction n generalizing i with
  | zero => simp [rotateOnes, Nat.mod_eq_of_lt hi]
  | succ n ih =>
    rw [rotateOnes_add]
    refine (getLsbD_rotl28_one _ hi).trans ?_
    rw [ih (Nat.mod_lt _ (by decide))]
    congr 1
    omega

/-- The 28-bit field has period 28. -/
theorem rotateOnes_full (x : KeyHalf) : rotateOnes 28 x = x := by
  apply BitVec.eq_of_getLsbD_eq
  intro i hi
  rw [getLsbD_rotateOnes 28 x hi]
  congr 1
  omega

theorem rotl28_two (x : KeyHalf) : rotl28 x 2 = rotl28 (rotl28 x 1) 1 := by
  apply BitVec.eq_of_getLsbD_eq
  intro i hi
  rw [getLsbD_rotl28_one _ hi, getLsbD_rotl28_one _ (Nat.mod_lt _ (by decide))]
  simp only [rotl28, BitVec.getLsbD_or, BitVec.getLsbD_shiftLeft, BitVec.getLsbD_ushiftRight, hi, decide_true,
    Bool.true_and]
  by_cases h2 : i < 2
  · have hmod : ((i + 27) % 28 + 27) % 28 = 28 - 2 + i := by omega
    simp [h2, hmod]
  · have hmod : ((i + 27) % 28 + 27) % 28 = i - 2 := by omega
    have hhigh : x.getLsbD (28 - 2 + i) = false := BitVec.getLsbD_of_ge x _ (by omega)
    simp [h2, hmod, hhigh]

/-- A round rotates by one or two single bits (`40_tables.md` R110). -/
theorem rotl28_shiftAmount (x : KeyHalf) (i : Nat) : rotl28 x (shiftAmount i) = rotateOnes (shiftAmount i) x := by
  unfold shiftAmount
  split
  · rfl
  · exact rotl28_two x

/-- How many single bits the first `n` rounds rotate by. -/
def shiftSum (n : Nat) : Nat := ((List.range n).map shiftAmount).sum

theorem shiftSum_succ (n : Nat) : shiftSum (n + 1) = shiftSum n + shiftAmount n := List.sum_range_succ ..

theorem halvesAfter_eq_rotateOnes (cd : KeyHalf × KeyHalf) (n : Nat) :
    halvesAfter cd n = (rotateOnes (shiftSum n) cd.1, rotateOnes (shiftSum n) cd.2) := by
  induction n with
  | zero => rfl
  | succ n ih =>
    simp only [halvesAfter_succ, ih, rotateHalves, rotl28_shiftAmount, shiftSum_succ, rotateOnes_add]

/-- Settles O39: the sixteen amounts add up to 28. -/
theorem halvesReturn : Obligations.HalvesReturn := by
  unfold Obligations.HalvesReturn
  intro cd
  have hsum : shiftSum 16 = 28 := by decide
  rw [halvesAfter_eq_rotateOnes, hsum, rotateOnes_full, rotateOnes_full]

/-- Settles O40: the halves after `i + 1` rounds in closed form, under PC-2. -/
theorem cumulativeRotation : Obligations.CumulativeRotation := by
  unfold Obligations.CumulativeRotation
  intro key i _
  rw [roundKey, halvesAfter_eq_rotateOnes]
  rfl

end Sys2Proof.Machine
end

section
/-!
SUPPORT. Permute as a whole (`40_tables.md` R100): what it reads, its complement, and one after another; with them the
parity bits of the key (`41_key_schedule.md` R143) and the complementation laws (R164, R191).
-/

namespace Sys2Proof.Machine

/-! Permute. -/

/-- Permute reads only the bits its table names. -/
theorem permute_congr {n m : Nat} {table : List Nat} {v w : BitVec n}
    (h : ∀ p ∈ table, v.getLsbD (n - p) = w.getLsbD (n - p)) : permute m table v = permute m table w := by
  unfold permute
  rw [List.foldl_ext _ _ 0 fun acc p hp => by rw [h p hp]]

theorem permute_not {n m : Nat} {table : List Nat} (hlen : table.length = m) (hn : 0 < n) (hpos : ∀ p ∈ table, 1 ≤ p)
    (v : BitVec n) : permute m table (~~~v) = ~~~permute m table v := by
  apply BitVec.eq_of_getLsbD_eq
  intro i hi
  have hp := hpos table[m - 1 - i] (List.getElem_mem ..)
  have hlt : n - table[m - 1 - i] < n := by omega
  rw [BitVec.getLsbD_not, getLsbD_permute hlen hi, getLsbD_permute hlen hi, BitVec.getLsbD_not]
  simp [hi, hlt]

/-- Two permutations of 64 bits undo each other where their tables do. -/
theorem permute_permute {t u : List Nat} (ht : t.length = 64) (hu : u.length = 64)
    (h : ∀ i (hi : i < 64), ∃ hlt : 64 - t[63 - i] < 64, 64 - u[63 - (64 - t[63 - i])] = i) (v : Block) :
    permute 64 t (permute 64 u v : Block) = v := by
  apply BitVec.eq_of_getLsbD_eq
  intro i hi
  obtain ⟨hlt, hback⟩ := h i hi
  rw [getLsbD_permute ht hi, getLsbD_permute hu hlt]
  exact congrArg v.getLsbD hback

/-- FP undoes IP. -/
theorem fp_ip (v : Block) : permute 64 fp (permute 64 ip v : Block) = v :=
  permute_permute rfl rfl (by decide) v

/-- IP undoes FP. -/
theorem ip_fp (v : Block) : permute 64 ip (permute 64 fp v : Block) = v :=
  permute_permute rfl rfl (by decide) v

/-- Settles O46: the two tables undo each other position by position. -/
theorem finalUndoesInitialPermutation : Obligations.FinalUndoesInitialPermutation := by
  unfold Obligations.FinalUndoesInitialPermutation
  exact fun v => ⟨fp_ip v, ip_fp v⟩

/-! The parity bits. -/

/-- A key schedule reads the key through PC-1 alone. -/
theorem keySchedule_congr {key key' : Block} (h : keyHalves key = keyHalves key') :
    keySchedule key = keySchedule key' := by
  simp only [keySchedule, roundKey, h]

theorem getLsbD_xor_of_and_eq_zero {key mask keep : Block} (h : mask &&& keep = 0#64) {i : Nat}
    (hi : keep.getLsbD i = true) : (key ^^^ mask).getLsbD i = key.getLsbD i := by
  have hmask : mask.getLsbD i = false := by simpa [hi] using congrArg (fun v => v.getLsbD i) h
  simp [hmask]

/-- Settles O41: PC-1 names no parity bit. -/
theorem parityBitsIgnored : Obligations.ParityBitsIgnored := by
  unfold Obligations.ParityBitsIgnored
  intro key mask hmask
  have hC : ∀ p ∈ pc1C, (0xFEFEFEFEFEFEFEFE#64 : Block).getLsbD (64 - p) = true := by decide
  have hD : ∀ p ∈ pc1D, (0xFEFEFEFEFEFEFEFE#64 : Block).getLsbD (64 - p) = true := by decide
  apply keySchedule_congr
  exact congrArg₂ Prod.mk (permute_congr fun p hp => getLsbD_xor_of_and_eq_zero hmask (hC p hp))
    (permute_congr fun p hp => getLsbD_xor_of_and_eq_zero hmask (hD p hp))

/-! The complementation laws. -/

theorem not_xor_not {n : Nat} (a b : BitVec n) : ~~~a ^^^ ~~~b = a ^^^ b := by
  rw [← BitVec.not_xor_left, ← BitVec.not_xor_right, BitVec.not_not]

theorem feistelF_not (r : Half) (k : RoundKey) : feistelF (~~~r) (~~~k) = feistelF r k := by
  have hE : permute 48 expansion (~~~r) = ~~~permute 48 expansion r := permute_not rfl (by decide) (by decide) r
  rw [feistelF, hE, not_xor_not]
  rfl

/-- Settles O44: E passes the complement on, and it cancels in the exclusive or. -/
theorem roundFunctionComplement : Obligations.RoundFunctionComplement := by
  unfold Obligations.RoundFunctionComplement
  exact feistelF_not

/-- Both parts of a pair complemented. -/
def notBoth {n : Nat} (p : BitVec n × BitVec n) : BitVec n × BitVec n := (~~~p.1, ~~~p.2)

theorem keyHalves_not (key : Block) : keyHalves (~~~key) = notBoth (keyHalves key) :=
  congrArg₂ Prod.mk (permute_not rfl (by decide) (by decide) key) (permute_not rfl (by decide) (by decide) key)

theorem rotateOnes_not (n : Nat) (h : KeyHalf) : rotateOnes n (~~~h) = ~~~rotateOnes n h := by
  apply BitVec.eq_of_getLsbD_eq
  intro i hi
  have hlt : (i + 27 * n) % 28 < 28 := Nat.mod_lt _ (by decide)
  rw [BitVec.getLsbD_not, getLsbD_rotateOnes n _ hi, getLsbD_rotateOnes n _ hi, BitVec.getLsbD_not]
  simp [hi, hlt]

theorem contract_not (cd : KeyHalf × KeyHalf) : contract (notBoth cd) = ~~~contract cd := by
  have hjoin : joinCD (~~~cd.1) (~~~cd.2) = ~~~joinCD cd.1 cd.2 := BitVec.not_append.symm
  show permute 48 pc2 (joinCD (~~~cd.1) (~~~cd.2)) = _
  rw [hjoin]
  exact permute_not rfl (by decide) (by decide) _

theorem roundKey_not (key : Block) (i : Nat) : roundKey (~~~key) i = ~~~roundKey key i := by
  rw [roundKey, roundKey, ← contract_not, keyHalves_not]
  simp only [halvesAfter_eq_rotateOnes, notBoth, rotateOnes_not]

theorem keyFor_keySchedule_not (key : Block) (dir : Dir) {n : Nat} (hn : n < 16) :
    keyFor (keySchedule (~~~key)) dir n = ~~~keyFor (keySchedule key) dir n := by
  cases dir with
  | enc => simp only [keyFor, rkEntry_keySchedule _ n hn, roundKey_not]
  | dec => simp only [keyFor, rkEntry_keySchedule _ (15 - n) (by omega), roundKey_not]

theorem feistelRound_not (lr : Half × Half) (k : RoundKey) :
    feistelRound (notBoth lr) (~~~k) = notBoth (feistelRound lr k) := by
  simp only [feistelRound, notBoth, feistelF_not, BitVec.not_xor_left]

theorem roundsFrom_not {rk rk' : Vector RoundKey 16} {dir : Dir}
    (hk : ∀ n, n < 16 → keyFor rk' dir n = ~~~keyFor rk dir n) (lr : Half × Half) {n : Nat} (hn : n ≤ 16) :
    roundsFrom rk' dir (notBoth lr) n = notBoth (roundsFrom rk dir lr n) := by
  induction n with
  | zero => rfl
  | succ n ih => rw [roundsFrom_succ, roundsFrom_succ, ih (by omega), hk n (by omega), feistelRound_not]

theorem blockHalves_not (b : Block) : blockHalves (~~~b) = notBoth (blockHalves b) := by
  have hip : permute 64 ip (~~~b) = ~~~(permute 64 ip b : Block) := permute_not rfl (by decide) (by decide) b
  have hhi : ∀ v : Block, hiHalf (~~~v) = ~~~hiHalf v := fun v => by ext i hi; simp [hiHalf]; omega
  have hlo : ∀ v : Block, loHalf (~~~v) = ~~~loHalf v := fun v => by ext i hi; simp [loHalf]; omega
  simp only [blockHalves, notBoth, hip, hhi, hlo]

theorem blockOutput_not (lr : Half × Half) : blockOutput (notBoth lr) = ~~~blockOutput lr := by
  have hjoin : joinHalves (~~~lr.2) (~~~lr.1) = ~~~joinHalves lr.2 lr.1 := BitVec.not_append.symm
  show permute 64 fp (joinHalves (~~~lr.2) (~~~lr.1)) = _
  rw [hjoin]
  exact permute_not rfl (by decide) (by decide) _

/-- Settles O45: the complement passes through the schedule, IP, every round and FP. -/
theorem desComplement : Obligations.DesComplement := by
  unfold Obligations.DesComplement
  intro key dir b
  rw [des, network, blockHalves_not, roundsFrom_not (fun n hn => keyFor_keySchedule_not key dir hn) _ le_rfl,
    blockOutput_not]
  rfl

end Sys2Proof.Machine
end

section
/-!
SUPPORT. The network undone (`42_feistel_round.md` R163, `43_block_network.md` R184, R190): the rounds in the other key
order on the swapped halves. With the schedules of the weak keys (R149) and the known answers (`95_test_vectors.md`).
-/

namespace Sys2Proof.Machine

theorem blockHalves_blockOutput (lr : Half × Half) : blockHalves (blockOutput lr) = lr.swap := by
  simp [blockHalves, blockOutput, ip_fp, joinHalves, Prod.swap]

theorem blockOutput_swap_blockHalves (b : Block) : blockOutput (blockHalves b).swap = b := by
  simp [blockHalves, blockOutput, joinHalves, fp_ip]

/-- A round on the swapped result of a round, with the same key, is that round undone (R163). -/
theorem feistelRound_swap (lr : Half × Half) (k : RoundKey) :
    feistelRound (feistelRound lr k).swap k = lr.swap := by
  simp [feistelRound, Prod.swap]

/-- The first `n` rounds in the other order take the last `n` rounds back. -/
theorem roundsFrom_reversed {rk : Vector RoundKey 16} {dir dir' : Dir}
    (hk : ∀ n, n < 16 → keyFor rk dir' n = keyFor rk dir (15 - n)) (lr : Half × Half) {n : Nat} (hn : n ≤ 16) :
    roundsFrom rk dir' (roundsFrom rk dir lr 16).swap n = (roundsFrom rk dir lr (16 - n)).swap := by
  induction n with
  | zero => rfl
  | succ n ih =>
    have hlast : 16 - n = (15 - n) + 1 := by omega
    have hround : 16 - (n + 1) = 15 - n := by omega
    rw [roundsFrom_succ, ih (by omega), hlast, hround, roundsFrom_succ, hk n (by omega), feistelRound_swap]

theorem network_network {rk : Vector RoundKey 16} {dir dir' : Dir}
    (hk : ∀ n, n < 16 → keyFor rk dir' n = keyFor rk dir (15 - n)) (b : Block) :
    network rk dir' (network rk dir b) = b := by
  rw [network, network, blockHalves_blockOutput, roundsFrom_reversed hk _ le_rfl]
  exact blockOutput_swap_blockHalves b

theorem keyFor_dec (rk : Vector RoundKey 16) (n : Nat) : keyFor rk .dec n = keyFor rk .enc (15 - n) := rfl

theorem keyFor_enc (rk : Vector RoundKey 16) {n : Nat} (hn : n < 16) : keyFor rk .enc n = keyFor rk .dec (15 - n) := by
  have hback : 15 - (15 - n) = n := by omega
  rw [keyFor_dec, hback]

theorem network_dec_enc (rk : Vector RoundKey 16) (b : Block) : network rk .dec (network rk .enc b) = b :=
  network_network (fun n _ => keyFor_dec rk n) b

theorem network_enc_dec (rk : Vector RoundKey 16) (b : Block) : network rk .enc (network rk .dec b) = b :=
  network_network (fun _ hn => keyFor_enc rk hn) b

/-- Settles O47: a round by cancelling its exclusive or, the network by `network_network` in both orders. -/
theorem networkInverse : Obligations.NetworkInverse := by
  unfold Obligations.NetworkInverse
  refine ⟨fun l r l' r' k h => ?round, fun rk b => ⟨network_dec_enc rk b, network_enc_dec rk b⟩⟩
  case round =>
    obtain ⟨rfl, rfl⟩ := Prod.mk.inj h
    simp

theorem keyFor_replicate (k : RoundKey) (dir : Dir) {n : Nat} (hn : n < 16) :
    keyFor (Vector.replicate 16 k) dir n = k := by
  rw [keyFor_eq_ite _ dir hn]
  simp

theorem roundsFrom_congr {rk : Vector RoundKey 16} {dir dir' : Dir}
    (hk : ∀ n, n < 16 → keyFor rk dir n = keyFor rk dir' n) (lr : Half × Half) {n : Nat} (hn : n ≤ 16) :
    roundsFrom rk dir lr n = roundsFrom rk dir' lr n := by
  induction n with
  | zero => rfl
  | succ n ih => rw [roundsFrom_succ, roundsFrom_succ, ih (by omega), hk n (by omega)]

/-- Settles O43: with one key the two orders are the same, so ENC is its own inverse as DEC is ENC's. -/
theorem equalRoundKeysSelfInverse : Obligations.EqualRoundKeysSelfInverse := by
  unfold Obligations.EqualRoundKeysSelfInverse
  intro k b
  have hkeys : ∀ n, n < 16 → keyFor (Vector.replicate 16 k) .enc n = keyFor (Vector.replicate 16 k) .dec n :=
    fun n hn => (keyFor_replicate k .enc hn).trans (keyFor_replicate k .dec hn).symm
  have hsame : ∀ b, network (Vector.replicate 16 k) .enc b = network (Vector.replicate 16 k) .dec b :=
    fun b => congrArg blockOutput (roundsFrom_congr hkeys _ le_rfl)
  refine ⟨hsame b, ?_⟩
  rw [hsame (network _ _ b), network_dec_enc]

/-- Settles O42: the four schedules computed. -/
theorem weakKeySchedules : Obligations.WeakKeySchedules := by
  unfold Obligations.WeakKeySchedules
  decide +kernel

/-- Settles O48: encryption and F computed; the decryption undoes the encryption. -/
theorem knownAnswers : Obligations.KnownAnswers := by
  unfold Obligations.KnownAnswers
  have henc : des 0x133457799BBCDFF1#64 .enc 0x0123456789ABCDEF#64 = 0x85E813540F0AB405#64 := by decide +kernel
  refine ⟨henc, ?_, by decide +kernel⟩
  rw [← henc]
  exact network_dec_enc _ _

end Sys2Proof.Machine
end

section
/-!
SUPPORT. Sixteen engine steps of an accepted command (`41_key_schedule.md` R148, `43_block_network.md` R189), and the
collapsed command they make up (`70_reset_and_hazards.md` R282).
-/

namespace Sys2Proof.Machine

/-! Engine steps in a row. -/

theorem engineSteps_succ (n : Nat) (e : Engine) : engineSteps (n + 1) e = engineStep (engineSteps n e) := by
  induction n generalizing e with
  | zero => rfl
  | succ n ih => exact ih (engineStep e)

theorem engineSteps_idle {e : Engine} (h : e.phase = .idle) (n : Nat) : engineSteps n e = e := by
  induction n with
  | zero => rfl
  | succ n ih => rw [engineSteps, engineStep_idle h, ih]

theorem ofNat_cnt_ne {n : Nat} (h : n < 15) : BitVec.ofNat 4 n ≠ 15#4 := by
  intro heq
  have := congrArg BitVec.toNat heq
  simp at this
  omega

theorem ofNat_cnt_toNat {n : Nat} (h : n < 16) : (BitVec.ofNat 4 n).toNat = n := by
  simpa using h

theorem ofNat_cnt_succ (n : Nat) : BitVec.ofNat 4 n + 1#4 = BitVec.ofNat 4 (n + 1) := (BitVec.ofNat_add ..).symm

/-! KSCHED. -/

/-- The store holds the first `n` round keys of a key. -/
def HoldsRoundKeys (key : Block) (rk : Vector RoundKey 16) (n : Nat) : Prop :=
  ∀ i, i < n → rkEntry rk i = roundKey key i

/-- Storing round key `n` (`41_key_schedule.md` R146). -/
theorem HoldsRoundKeys.set {key : Block} {rk : Vector RoundKey 16} {n : Nat} (h : HoldsRoundKeys key rk n)
    (hn : n < 16) : HoldsRoundKeys key (rk.set n (roundKey key n)) (n + 1) := by
  intro i hi
  rw [rkEntry_set]
  split
  · next hin => rw [hin]
  · exact h i (by omega)

theorem HoldsRoundKeys.eq_keySchedule {key : Block} {rk : Vector RoundKey 16} (h : HoldsRoundKeys key rk 16) :
    rk = keySchedule key :=
  rk_ext fun i hi => (h i hi).trans (rkEntry_keySchedule key i hi).symm

/-- An engine that has taken `n` of the sixteen steps of a KSCHED for `key`, and has stored `rk`. -/
def kschedAt (key : Block) (n : Nat) (rk : Vector RoundKey 16) (e : Engine) : Engine :=
  { e with
    c := (halvesAfter (keyHalves key) n).1
    d := (halvesAfter (keyHalves key) n).2
    rk := rk
    cnt := BitVec.ofNat 4 n }

theorem engineStep_kschedAt {key : Block} {n : Nat} {rk : Vector RoundKey 16} {e : Engine} (hp : e.phase = .ksched)
    (hn : n < 15) :
    engineStep (kschedAt key n rk e) = kschedAt key (n + 1) (rk.set n (roundKey key n)) e := by
  rw [engineStep_ksched (e := kschedAt key n rk e) hp (ofNat_cnt_ne hn)]
  simp only [kschedAt, ofNat_cnt_toNat (show n < 16 by omega), ofNat_cnt_succ]
  rfl

theorem engineSteps_kschedAt {key : Block} {e : Engine} (hp : e.phase = .ksched) {n : Nat} (hn : n ≤ 15) :
    ∃ rk, HoldsRoundKeys key rk n ∧ engineSteps n (kschedAt key 0 e.rk e) = kschedAt key n rk e := by
  induction n with
  | zero => exact ⟨e.rk, fun i hi => absurd hi (Nat.not_lt_zero i), rfl⟩
  | succ n ih =>
    obtain ⟨rk, hrk, hsteps⟩ := ih (by omega)
    exact ⟨_, hrk.set (by omega), by rw [engineSteps_succ, hsteps, engineStep_kschedAt hp (by omega)]⟩

/-- The sixteen steps of a KSCHED: the whole schedule is stored and the halves are back at their start (R148). -/
theorem engineSteps_ksched {key : Block} {e : Engine} (hp : e.phase = .ksched) (hcnt : e.cnt = 0#4)
    (hc : e.c = (keyHalves key).1) (hd : e.d = (keyHalves key).2) :
    engineSteps 16 e = { e with rk := keySchedule key, keyValid := true, cnt := 0#4, phase := .idle } := by
  have hstart : e = kschedAt key 0 e.rk e := by
    rw [kschedAt, halvesAfter, ← hc, ← hd, ← hcnt]
  obtain ⟨rk, hrk, hsteps⟩ := engineSteps_kschedAt (key := key) hp (le_refl 15)
  have hhalves : halvesAfter (keyHalves key) 16 = keyHalves key := halvesReturn (keyHalves key)
  calc engineSteps 16 e = engineStep (engineSteps 15 (kschedAt key 0 e.rk e)) := by rw [engineSteps_succ, ← hstart]
    _ = engineStep (kschedAt key 15 rk e) := by rw [hsteps]
    _ = { kschedAt key 16 (rk.set 15 (roundKey key 15)) e with keyValid := true, cnt := 0#4, phase := .idle } :=
      engineStep_ksched_last (e := kschedAt key 15 rk e) hp rfl
    _ = _ := by rw [(hrk.set (by decide)).eq_keySchedule, kschedAt, hhalves, ← hc, ← hd]

/-! ENC and DEC. -/

/-- An engine that has taken `n` of the sixteen steps of a block command that started from the halves `lr`. -/
def blockAt (lr : Half × Half) (n : Nat) (e : Engine) : Engine :=
  { e with
    l := (roundsFrom e.rk e.dirn lr n).1
    r := (roundsFrom e.rk e.dirn lr n).2
    cnt := BitVec.ofNat 4 n }

theorem engineStep_blockAt {lr : Half × Half} {n : Nat} {e : Engine} (hp : e.phase = .block) (hn : n < 15) :
    engineStep (blockAt lr n e) = blockAt lr (n + 1) e := by
  rw [engineStep_block (e := blockAt lr n e) hp (ofNat_cnt_ne hn)]
  simp only [blockAt, ofNat_cnt_toNat (show n < 16 by omega), ofNat_cnt_succ]
  rfl

theorem engineSteps_blockAt {lr : Half × Half} {e : Engine} (hp : e.phase = .block) {n : Nat} (hn : n ≤ 15) :
    engineSteps n (blockAt lr 0 e) = blockAt lr n e := by
  induction n with
  | zero => rfl
  | succ n ih => rw [engineSteps_succ, ih (by omega), engineStep_blockAt hp (by omega)]

/-- The sixteen steps of a block command: sixteen rounds, then the output (R189). -/
theorem engineSteps_block {e : Engine} (hp : e.phase = .block) (hcnt : e.cnt = 0#4) :
    engineSteps 16 e =
      { e with
        l := (roundsFrom e.rk e.dirn (e.l, e.r) 16).1, r := (roundsFrom e.rk e.dirn (e.l, e.r) 16).2,
        dout := blockOutput (roundsFrom e.rk e.dirn (e.l, e.r) 16), done := true, cnt := 0#4, phase := .idle } := by
  have hstart : e = blockAt (e.l, e.r) 0 e := by
    rw [blockAt, roundsFrom, ← hcnt]
  calc engineSteps 16 e = engineStep (engineSteps 15 (blockAt (e.l, e.r) 0 e)) := by rw [engineSteps_succ, ← hstart]
    _ = engineStep (blockAt (e.l, e.r) 15 e) := by rw [engineSteps_blockAt hp le_rfl]
    _ = _ := engineStep_block_last (e := blockAt (e.l, e.r) 15 e) hp rfl

/-! The collapsed command. -/

theorem engineSteps_kschedAccept (e : Engine) : engineSteps 16 (kschedAccept e) = kschedWhole e :=
  engineSteps_ksched rfl rfl rfl rfl

theorem engineSteps_blockAccept (dir : Dir) (e : Engine) : engineSteps 16 (blockAccept dir e) = blockWhole dir e :=
  engineSteps_block rfl rfl

/-- A gate that rejects on an idle engine leaves it idle; one that accepts runs the command to its end. -/
theorem engineSteps_commandGate {e : Engine} (h : e.phase = .idle) (needsKey : Bool) {accept whole : Engine → Engine}
    (hwhole : engineSteps 16 (accept e) = whole e) :
    engineSteps 16 (commandGate needsKey accept e) = commandGate needsKey whole e := by
  by_cases hk : needsKey = true ∧ e.keyValid = false
  · obtain ⟨rfl, hk⟩ := hk
    rw [commandGate_nokey accept h hk, commandGate_nokey whole h hk]
    exact engineSteps_idle (e := e.raise .nokey) h 16
  · have hk' : needsKey = true → e.keyValid = true := by simpa using hk
    rw [commandGate_accept needsKey accept h hk', commandGate_accept needsKey whole h hk', hwhole]

theorem engineSteps_commandEffect {e : Engine} (h : e.phase = .idle) (i : Instr) :
    engineSteps 16 (commandEffect i e) = collapsedCommand i e := by
  cases i with
  | nop => exact engineSteps_idle h 16
  | ksched => exact engineSteps_commandGate h false (engineSteps_kschedAccept e)
  | enc => exact engineSteps_commandGate h true (engineSteps_blockAccept .enc e)
  | dec => exact engineSteps_commandGate h true (engineSteps_blockAccept .dec e)
  | clr => exact engineSteps_commandGate h false (engineSteps_idle (e := e.acknowledge) h 16)

/-- Settles O36: the command changes the one engine by its effect, whose sixteen steps make the collapsed command. -/
theorem collapsedCommandAgrees : Obligations.CollapsedCommandAgrees := by
  unfold Obligations.CollapsedCommandAgrees
  intro i s x hx hidle
  obtain ⟨y, hy, hyeng⟩ := State.slot_of_engineAt (State.engineAt_putEngine_same hx (commandEffect i x.eng))
  exact ⟨_, y, exec_of_slot i hx, hy, by rw [hyeng, engineSteps_commandEffect hidle]⟩

/-- Settles O49: the output is the network's value of RK, the direction and DIN. -/
theorem blockIndependence : Obligations.BlockIndependence := by
  unfold Obligations.BlockIndependence
  intro dir e e' hrk hdin
  rw [engineSteps_blockAccept, engineSteps_blockAccept, blockWhole, blockWhole, hrk, hdin]

end Sys2Proof.Machine
end

section
/-!
SUPPORT. A command in progress under any interleaving (`20_memory.md` R58, R60, `70_reset_and_hazards.md` R280): no
engine step reads or writes KEY, DIN or an error flag, and a host write to a busy engine changes nothing else.
-/

namespace Sys2Proof.Machine

/-- An engine with other values in KEY, DIN and the error flags. -/
def Engine.withOperands (e : Engine) (key din : Block) (errCmd errBusy errNokey : Bool) : Engine :=
  { e with key := key, din := din, errCmd := errCmd, errBusy := errBusy, errNokey := errNokey }

/-- An engine step neither reads nor writes KEY, DIN and the error flags. -/
theorem engineStep_withOperands (e : Engine) (key din : Block) (a b c : Bool) :
    engineStep (e.withOperands key din a b c) = (engineStep e).withOperands key din a b c := by
  cases hp : e.phase with
  | idle => rw [engineStep_idle hp, engineStep_idle (e := e.withOperands key din a b c) hp]
  | ksched =>
    by_cases hc : e.cnt = 15#4
    · rw [engineStep_ksched_last hp hc, engineStep_ksched_last (e := e.withOperands key din a b c) hp hc]; rfl
    · rw [engineStep_ksched hp hc, engineStep_ksched (e := e.withOperands key din a b c) hp hc]; rfl
  | block =>
    by_cases hc : e.cnt = 15#4
    · rw [engineStep_block_last hp hc, engineStep_block_last (e := e.withOperands key din a b c) hp hc]; rfl
    · rw [engineStep_block hp hc, engineStep_block (e := e.withOperands key din a b c) hp hc]; rfl

theorem engineSteps_withOperands (n : Nat) (e : Engine) (key din : Block) (a b c : Bool) :
    engineSteps n (e.withOperands key din a b c) = (engineSteps n e).withOperands key din a b c := by
  induction n generalizing e with
  | zero => rfl
  | succ n ih => rw [engineSteps, engineStep_withOperands, ih]; rfl

/-- With no change of its own to KEY, DIN and the error flags an engine step keeps them. -/
theorem engineSteps_operands (n : Nat) (e : Engine) :
    engineSteps n e = (engineSteps n e).withOperands e.key e.din e.errCmd e.errBusy e.errNokey :=
  engineSteps_withOperands n e e.key e.din e.errCmd e.errBusy e.errNokey

/-- Every register write is such a change, which depends on KEY and DIN alone. -/
theorem writeReg_eq_withOperands (off : Nat) (v : Word) (e : Engine) :
    ∃ key din, ∀ e' : Engine, e'.key = e.key → e'.din = e.din →
      writeReg off v e' = e'.withOperands key din e'.errCmd e'.errBusy e'.errNokey := by
  unfold writeReg
  split_ifs
  · exact ⟨setHi e.key v, e.din, fun e' hk hd => by rw [← hk, ← hd]; rfl⟩
  · exact ⟨setLo e.key v, e.din, fun e' hk hd => by rw [← hk, ← hd]; rfl⟩
  · exact ⟨e.key, setHi e.din v, fun e' hk hd => by rw [← hk, ← hd]; rfl⟩
  · exact ⟨e.key, setLo e.din v, fun e' hk hd => by rw [← hk, ← hd]; rfl⟩
  · exact ⟨e.key, e.din, fun e' hk hd => by rw [← hk, ← hd]; rfl⟩

/-- Settles O23: the write changes KEY or DIN, by their own values, and the steps leave both alone. -/
theorem operandWritesDoNotDisturb : Obligations.OperandWritesDoNotDisturb := by
  unfold Obligations.OperandWritesDoNotDisturb
  intro e off n v
  obtain ⟨key, din, hwrite⟩ := writeReg_eq_withOperands off v e
  have hframe := engineSteps_operands n e
  rw [hwrite e rfl rfl, hwrite (engineSteps n e) (by rw [hframe]; rfl) (by rw [hframe]; rfl), engineSteps_withOperands,
    hframe]
  rfl

/-! What a running command depends on. -/

/-- The registers a running command reads or writes; KEY, DIN and the error flags blanked. -/
def Engine.commandPart (e : Engine) : Engine := e.withOperands 0#64 0#64 false false false

theorem engineStep_commandPart (e : Engine) : engineStep e.commandPart = (engineStep e).commandPart :=
  engineStep_withOperands ..

theorem engineSteps_commandPart (n : Nat) (e : Engine) : engineSteps n e.commandPart = (engineSteps n e).commandPart :=
  engineSteps_withOperands ..

theorem writeEffect_commandPart_of_busy (off : Nat) (v : Word) {e : Engine} (h : e.phase ≠ .idle) :
    (writeEffect off v e).commandPart = e.commandPart := by
  obtain ⟨key, din, a, b, c, hwrite⟩ := writeEffect_busy off v h
  rw [hwrite]
  rfl

theorem stepsLeft_commandPart (e : Engine) : stepsLeft e.commandPart = stepsLeft e := rfl

/-- One move that is no reset of a busy instance: its engine steps, or its running command is left alone. -/
theorem advance_busy {a : Agent} {s t : State} (h : advance a s = .next t) {k : Nat} {e : Engine}
    (he : s.engineAt k = some e) (hbusy : e.phase ≠ .idle) (ha : a ≠ .reset k) :
    ∃ e', t.engineAt k = some e' ∧
      ((a ≠ .engine k ∧ e'.commandPart = e.commandPart) ∨ (a = .engine k ∧ e' = engineStep e)) := by
  by_cases hk : a = .engine k
  · subst hk
    cases h
    exact ⟨engineStep e, by simp [State.engineAt_updAt, he], .inr ⟨rfl, rfl⟩⟩
  · obtain ⟨e', he', h1 | ⟨v, off, -, -, -, h1⟩ | ⟨h1, -⟩ | ⟨h1, -⟩⟩ := advance_engineAt h he
    · exact ⟨e', he', .inl ⟨hk, by rw [h1]⟩⟩
    · exact ⟨e', he', .inl ⟨hk, by rw [h1, writeEffect_commandPart_of_busy off v hbusy]⟩⟩
    · exact absurd h1 hk
    · exact absurd h1 ha

/-- A run with fewer engine steps of the instance than its command needs: the command is as after that many steps. -/
theorem runTurns_busy {ts : List Agent} {s t : State} {k : Nat} {e : Engine} (hrun : s.runTurns ts = .next t)
    (he : s.engineAt k = some e) (hreset : Agent.reset k ∉ ts) (hleft : ts.count (.engine k) < stepsLeft e) :
    ∃ e', t.engineAt k = some e' ∧ e'.commandPart = (engineSteps (ts.count (.engine k)) e).commandPart := by
  induction ts generalizing s e with
  | nil =>
    rw [runTurns_nil] at hrun
    cases hrun
    exact ⟨e, he, rfl⟩
  | cons a ts ih =>
    obtain ⟨u, hstep, hrest⟩ := runTurns_cons_next hrun
    have hbusy : e.phase ≠ .idle := fun hi => by rw [(stepsLeft_eq_zero e).2 hi] at hleft; omega
    have ha : a ≠ .reset k := fun hr => hreset (hr ▸ List.mem_cons_self)
    have hts : Agent.reset k ∉ ts := fun hm => hreset (List.mem_cons_of_mem _ hm)
    obtain ⟨e1, he1, ⟨hk, hsame⟩ | ⟨rfl, rfl⟩⟩ := advance_busy hstep he hbusy ha
    · rw [List.count_cons_of_ne hk] at hleft ⊢
      have hleft1 : stepsLeft e1 = stepsLeft e := by
        rw [← stepsLeft_commandPart e1, hsame, stepsLeft_commandPart]
      obtain ⟨e', he', hcmd⟩ := ih hrest he1 hts (by omega)
      exact ⟨e', he', by rw [hcmd, ← engineSteps_commandPart, hsame, engineSteps_commandPart]⟩
    · rw [List.count_cons_self] at hleft ⊢
      have hleft1 := stepsLeft_engineStep e
      exact ih hrest he1 hts (by omega)

/-- The same run and one last engine step. -/
theorem runTurns_busy_last {ts : List Agent} {s t : State} {k : Nat} {x : Slot}
    (hrun : s.runTurns (ts ++ [.engine k]) = .next t) (hx : s.engines[k]? = some x) (hreset : Agent.reset k ∉ ts)
    (hleft : ts.count (.engine k) < stepsLeft x.eng) :
    ∃ y, t.engines[k]? = some y ∧
      y.eng.commandPart = (engineSteps (ts.count (.engine k) + 1) x.eng).commandPart := by
  obtain ⟨u, hfirst, hlast⟩ := runTurns_append_next hrun
  obtain ⟨e', he', hcmd⟩ := runTurns_busy hfirst (State.engineAt_of_slot hx) hreset hleft
  obtain ⟨w, hstep, hend⟩ := runTurns_cons_next hlast
  cases hstep
  rw [runTurns_nil] at hend
  cases hend
  have hy : (u.updAt k engineStep).engineAt k = some (engineStep e') := by simp [State.engineAt_updAt, he']
  obtain ⟨y, hy, hyeng⟩ := State.slot_of_engineAt hy
  exact ⟨y, hy, by rw [hyeng, ← engineStep_commandPart, hcmd, engineStep_commandPart, ← engineSteps_succ]⟩

/-- Settles O34: the command's sixteen steps store the schedule, whatever KEY, DIN and the error flags are by then. -/
theorem kschedRunUnderInterleaving : Obligations.KschedRunUnderInterleaving := by
  unfold Obligations.KschedRunUnderInterleaving
  intro s t k x k64 ts hx hphase hcnt hc hd hcount hreset hrun
  have hleft : stepsLeft x.eng = 16 := by simp [stepsLeft, hphase, hcnt]
  obtain ⟨y, hy, hcmd⟩ := runTurns_busy_last hrun hx hreset (by omega)
  rw [hcount, engineSteps_ksched hphase hcnt hc hd] at hcmd
  have hpart : ∀ {α : Type} (f : Engine → α), f y.eng.commandPart = _ := fun f => congrArg f hcmd
  exact ⟨y, hy, hpart Engine.rk, (hpart Engine.c).trans hc, (hpart Engine.d).trans hd, hpart Engine.keyValid,
    hpart Engine.phase, hpart Engine.cnt, hpart Engine.dout, hpart Engine.done, hpart Engine.dirn⟩

/-- Settles O35: the command's sixteen steps make the network's value, whatever KEY, DIN and the error flags are by
then. -/
theorem blockRunUnderInterleaving : Obligations.BlockRunUnderInterleaving := by
  unfold Obligations.BlockRunUnderInterleaving
  intro s t k x b ts hx hphase hcnt hl hr hcount hreset hrun
  have hleft : stepsLeft x.eng = 16 := by simp [stepsLeft, hphase, hcnt]
  obtain ⟨y, hy, hcmd⟩ := runTurns_busy_last hrun hx hreset (by omega)
  have hlr : (x.eng.l, x.eng.r) = blockHalves b := congrArg₂ Prod.mk hl hr
  rw [hcount, engineSteps_block hphase hcnt, hlr] at hcmd
  have hpart : ∀ {α : Type} (f : Engine → α), f y.eng.commandPart = _ := fun f => congrArg f hcmd
  exact ⟨y, hy, hpart Engine.dout, hpart Engine.rk, hpart Engine.dirn, hpart Engine.done, hpart Engine.keyValid,
    hpart Engine.phase, hpart Engine.cnt⟩

end Sys2Proof.Machine
end

section
/-!
SUPPORT. What one step of the machine keeps: a property of every engine that writes, engine steps and reset keep, the
platform's promises and the memory's form (`10_state.md` R39, R41, `20_memory.md` R50).
-/

namespace Sys2Proof.Machine

/-- What holds of every engine, and is kept by every register write and engine step and met at reset, every step
keeps. -/
theorem step_keeps_engines {P : Engine → Prop} (hwrite : ∀ off v e, P e → P (writeEffect off v e))
    (hstep : ∀ e, P e → P (engineStep e)) (hreset : P Engine.reset) {s t : State} (h : step s = .next t)
    (hP : ∀ x ∈ s.engines, P x.eng) : ∀ x ∈ t.engines, P x.eng := by
  have htake : ∀ x ∈ s.takeTurn.engines, P x.eng := by simpa using hP
  obtain ⟨-, hsame, -, -⟩ | ⟨a, v, k, off, x, rest, -, -, -, -, -, -, rfl⟩ | ⟨k, -, rfl⟩ | ⟨k, -, rfl⟩ := step_next h
  · rwa [hsame]
  · exact State.forall_updAt { s.takeTurn with prog := rest, sel := k } k _ (hwrite off v) htake
  · exact State.forall_updAt _ k _ hstep htake
  · exact State.forall_updAt _ k _ (fun _ _ => hreset) htake

theorem step_length {s t : State} (h : step s = .next t) : t.engines.length = s.engines.length := by
  simpa using congrArg List.length (step_bases h)

/-- A step selects no instance that does not exist. -/
theorem step_sel_lt {s t : State} (h : step s = .next t) (hsel : s.sel < s.engines.length) :
    t.sel < s.engines.length := by
  obtain ⟨-, -, hsame, -⟩ | ⟨a, v, k, off, x, rest, -, -, -, -, hx, -, rfl⟩ | ⟨k, -, rfl⟩ | ⟨k, -, rfl⟩ := step_next h
  · rwa [hsame]
  · exact (List.getElem?_eq_some_iff.1 hx).1
  · simpa using hsel
  · simpa using hsel

theorem step_platformOk {s t : State} (h : step s = .next t) (hpf : s.PlatformOk) : t.PlatformOk := by
  obtain ⟨hsel, haligned, hdisjoint⟩ := hpf
  have hbases := step_bases h
  have hexists := step_sel_lt h hsel
  have hselected : ({ s with sel := t.sel } : State).PlatformOk := ⟨hexists, haligned, hdisjoint⟩
  exact State.platformOk_of_bases (s := { s with sel := t.sel }) hbases rfl hselected

theorem step_mem_wf {s t : State} (h : step s = .next t) (hm : s.mem.wf) : t.mem.wf := by
  obtain ⟨-, -, -, hkeep⟩ | ⟨a, v, k, off, x, rest, -, -, -, -, -, -, rfl⟩ | ⟨k, -, rfl⟩ | ⟨k, -, rfl⟩ := step_next h
  · exact hkeep hm
  · simpa using hm
  · simpa using hm
  · simpa using hm

/-- Settles O32: each of the three parts of the invariant by its own lemma. -/
theorem stepKeepsInvariant : Obligations.StepKeepsInvariant := by
  unfold Obligations.StepKeepsInvariant
  intro s t ⟨hpf, heng, hm⟩ h
  exact ⟨step_platformOk h hpf,
    step_keeps_engines (fun off v _ he => writeEffect_inv off v he) (fun _ he => engineStep_inv he) Engine.reset_inv h heng,
    step_mem_wf h hm⟩

/-! The meaning of KEY_VALID (`10_state.md` R31). -/

theorem Engine.reset_keyStoreSound : Engine.reset.KeyStoreSound := ⟨nofun, nofun⟩

/-- The rotation and the round key of one KSCHED step, for an engine that holds a key's halves rotated so far. -/
theorem rotateHalves_halvesAfter {key : Block} {e : Engine}
    (h : (e.c, e.d) = halvesAfter (keyHalves key) e.cnt.toNat) :
    rotateHalves e.cnt.toNat (e.c, e.d) = halvesAfter (keyHalves key) (e.cnt.toNat + 1) := by
  rw [h, halvesAfter_succ]

theorem engineStep_keyStoreSound {e : Engine} (hinv : e.Inv) (h : e.KeyStoreSound) :
    (engineStep e).KeyStoreSound := by
  obtain ⟨-, hksched, -, -⟩ := hinv
  obtain ⟨hvalid, hrunning⟩ := h
  cases hp : e.phase with
  | idle => rw [engineStep_idle hp]; exact ⟨hvalid, hrunning⟩
  | block =>
    by_cases hc : e.cnt = 15#4
    · rw [engineStep_block_last hp hc]; exact ⟨hvalid, nofun⟩
    · rw [engineStep_block hp hc]; exact ⟨hvalid, fun hk => absurd (hp.symm.trans hk) nofun⟩
  | ksched =>
    obtain ⟨key, hcd, hrk⟩ := hrunning hp
    have hhalves := rotateHalves_halvesAfter hcd
    have hstored : HoldsRoundKeys key (e.rk.set e.cnt.toNat (contract (rotateHalves e.cnt.toNat (e.c, e.d))))
        (e.cnt.toNat + 1) := by
      rw [hhalves]
      exact HoldsRoundKeys.set hrk e.cnt.isLt
    by_cases hc : e.cnt = 15#4
    · have hcnt : e.cnt.toNat + 1 = 16 := by rw [hc]; rfl
      have hback : halvesAfter (keyHalves key) (e.cnt.toNat + 1) = keyHalves key := by
        rw [hcnt]
        exact halvesReturn (keyHalves key)
      rw [engineStep_ksched_last hp hc]
      rw [hcnt] at hstored
      exact ⟨fun _ => ⟨key, hstored.eq_keySchedule, hhalves.trans hback⟩, nofun⟩
    · have hinvalid : e.keyValid = false := hksched hp
      rw [engineStep_ksched hp hc]
      refine ⟨fun hv => absurd (hinvalid.symm.trans hv) nofun, fun _ => ⟨key, ?_⟩⟩
      rw [cnt_succ_toNat hc]
      exact ⟨hhalves, hstored⟩

theorem writeEffect_keyStoreSound (off : Nat) (v : Word) {e : Engine} (h : e.KeyStoreSound) :
    (writeEffect off v e).KeyStoreSound := by
  unfold writeEffect
  split
  · obtain ⟨-, h1⟩ | ⟨-, h1⟩ | ⟨-, -, h1⟩ | ⟨-, -, -, h1⟩ | ⟨-, -, h1⟩ | ⟨-, -, -, h1⟩ | ⟨-, -, -, h1⟩ | ⟨-, -, h1⟩ :=
      dispatchEffect_cases v e
    · rw [h1]; exact h
    · rw [h1]; exact h
    · rw [h1]; exact h
    · rw [h1]; exact h
    · rw [h1]; exact ⟨nofun, fun _ => ⟨e.key, rfl, fun i hi => absurd hi (Nat.not_lt_zero i)⟩⟩
    · rw [h1]; exact ⟨h.1, nofun⟩
    · rw [h1]; exact ⟨h.1, nofun⟩
    · rw [h1]; exact h
  · obtain ⟨key, din, h1⟩ := writeReg_changes off v e
    rw [h1]
    exact h

/-- Settles O33: with the invariants of R39, which the running schedule needs, as part of what every step keeps. -/
theorem stepKeepsKeyStoreSound : Obligations.StepKeepsKeyStoreSound := by
  unfold Obligations.StepKeepsKeyStoreSound
  intro s t hinv hsound h x hx
  have hboth := step_keeps_engines (P := fun e => e.Inv ∧ e.KeyStoreSound)
    (fun off v _ he => ⟨writeEffect_inv off v he.1, writeEffect_keyStoreSound off v he.2⟩)
    (fun _ he => ⟨engineStep_inv he.1, engineStep_keyStoreSound he.1 he.2⟩)
    ⟨Engine.reset_inv, Engine.reset_keyStoreSound⟩ h fun y hy => ⟨hinv y hy, hsound y hy⟩
  exact (hboth x hx).2

/-- Settles O31: one instance at base 0 with a reset engine, and an empty memory. -/
theorem resetMeetsInvariants : Obligations.ResetMeetsInvariants := by
  unfold Obligations.ResetMeetsInvariants
  have heng : ∀ x ∈ State.reset.engines, x.eng = Engine.reset := fun x hx => by rw [List.mem_singleton.1 hx]
  have hpf : State.reset.PlatformOk := by decide
  exact ⟨⟨hpf, fun x hx => heng x hx ▸ Engine.reset_inv, List.Pairwise.nil⟩,
    fun x hx => heng x hx ▸ Engine.reset_keyStoreSound⟩

end Sys2Proof.Machine
end

section
/-!
SUPPORT. Who writes what (`10_state.md` R21 to R33, R41): what a step does to one instance is an operand write, a CTRL
write, an engine step or a reset, and each writes few registers.
-/

namespace Sys2Proof.Machine

/-- Everything a step can do to one instance. -/
theorem step_slot {s t : State} (h : step s = .next t) {k : Nat} {x y : Slot} (hx : s.engines[k]? = some x)
    (hy : t.engines[k]? = some y) :
    (∃ key din, y.eng = { x.eng with key := key, din := din }) ∨
    (∃ w rest, s.turn = .host ∧ s.prog = .bus (.write x.base 32 w) :: rest ∧ y.eng = dispatchEffect w x.eng) ∨
    (s.turn = .engine k ∧ y.eng = engineStep x.eng) ∨
    (s.turn = .reset k ∧ y.eng = Engine.reset) := by
  obtain hsame | ⟨v, off, x', rest, ht, hx', hp, -, -, hwrite⟩ | hstep | hreset :=
    step_engineAt h (State.engineAt_of_slot hx) (State.engineAt_of_slot hy)
  · exact .inl ⟨x.eng.key, x.eng.din, hsame⟩
  · obtain rfl : x = x' := Option.some.inj (hx.symm.trans hx')
    by_cases hoff : off = 0x00
    · subst hoff
      exact .inr (.inl ⟨v, rest, ht, hp, hwrite⟩)
    · obtain ⟨key, din, hreg⟩ := writeReg_changes off v x.eng
      exact .inl ⟨key, din, by rw [hwrite, writeEffect_of_ne_ctrl v hoff, hreg]⟩
  · exact .inr (.inr (.inl hstep))
  · exact .inr (.inr (.inr hreset))

theorem phase_cases (e : Engine) : e.phase = .idle ∨ e.phase = .ksched ∨ e.phase = .block := by
  cases e.phase <;> simp

/-- Which registers an engine step writes. -/
theorem engineStep_writes (e : Engine) :
    engineStep e = e ∨
    (∃ c d k n, e.phase = .ksched ∧ engineStep e = { e with c := c, d := d, rk := e.rk.set e.cnt.toNat k, cnt := n }) ∨
    (∃ c d k, e.phase = .ksched ∧ e.cnt = 15#4 ∧
      engineStep e =
        { e with c := c, d := d, rk := e.rk.set e.cnt.toNat k, keyValid := true, cnt := 0#4, phase := .idle }) ∨
    (∃ l r n, engineStep e = { e with l := l, r := r, cnt := n }) ∨
    (∃ l r o, e.phase = .block ∧ e.cnt = 15#4 ∧
      engineStep e = { e with l := l, r := r, dout := o, done := true, cnt := 0#4, phase := .idle }) := by
  obtain hp | hp | hp := phase_cases e
  · exact .inl (engineStep_idle hp)
  · by_cases hc : e.cnt = 15#4
    · exact .inr (.inr (.inl ⟨_, _, _, hp, hc, engineStep_ksched_last hp hc⟩))
    · exact .inr (.inl ⟨_, _, _, _, hp, engineStep_ksched hp hc⟩)
  · by_cases hc : e.cnt = 15#4
    · exact .inr (.inr (.inr (.inr ⟨_, _, _, hp, hc, engineStep_block_last hp hc⟩)))
    · exact .inr (.inr (.inr (.inl ⟨_, _, _, engineStep_block hp hc⟩)))

/-- Which registers a CTRL write writes. -/
theorem dispatchEffect_writes (w : Word) (e : Engine) :
    (∃ a b c, dispatchEffect w e = { e with errCmd := a, errBusy := b, errNokey := c }) ∨
    (e.phase = .idle ∧ w = 1#32 ∧ dispatchEffect w e = kschedAccept e) ∨
    (∃ dir, e.phase = .idle ∧ e.keyValid = true ∧ (w = 2#32 ∨ w = 3#32) ∧ dispatchEffect w e = blockAccept dir e) ∨
    (e.phase = .idle ∧ w = 4#32 ∧ dispatchEffect w e = e.acknowledge) := by
  obtain ⟨-, h1⟩ | ⟨-, h1⟩ | ⟨-, -, h1⟩ | ⟨-, -, -, h1⟩ | h1 | ⟨hp, hk, hw, h1⟩ | ⟨hp, hk, hw, h1⟩ | h1 :=
    dispatchEffect_cases w e
  · exact .inl ⟨_, _, _, h1⟩
  · exact .inl ⟨_, _, _, h1⟩
  · exact .inl ⟨_, _, _, h1⟩
  · exact .inl ⟨_, _, _, h1⟩
  · exact .inr (.inl h1)
  · exact .inr (.inr (.inl ⟨_, hp, hk, .inl hw, h1⟩))
  · exact .inr (.inr (.inl ⟨_, hp, hk, .inr hw, h1⟩))
  · exact .inr (.inr (.inr h1))

/-! The error flags. -/

/-- Each error flag that is set stays set. -/
def FlagsKept (e e' : Engine) : Prop :=
  (e.errCmd = true → e'.errCmd = true) ∧ (e.errBusy = true → e'.errBusy = true) ∧
  (e.errNokey = true → e'.errNokey = true)

theorem flagsKept_engineStep (e : Engine) : FlagsKept e (engineStep e) := by
  have hframe : engineStep e = (engineStep e).withOperands e.key e.din e.errCmd e.errBusy e.errNokey :=
    engineSteps_operands 1 e
  rw [hframe]
  exact ⟨id, id, id⟩

theorem flagsKept_dispatchEffect {w : Word} {e : Engine} (hclr : ¬(e.phase = .idle ∧ w = 4#32)) :
    FlagsKept e (dispatchEffect w e) := by
  obtain ⟨-, h1⟩ | ⟨-, h1⟩ | ⟨-, -, h1⟩ | ⟨-, -, -, h1⟩ | ⟨-, -, h1⟩ | ⟨-, -, -, h1⟩ | ⟨-, -, -, h1⟩ | ⟨hp, hw, h1⟩ :=
    dispatchEffect_cases w e
  · rw [h1]; exact ⟨fun _ => rfl, id, id⟩
  · rw [h1]; exact ⟨id, id, id⟩
  · rw [h1]; exact ⟨id, fun _ => rfl, id⟩
  · rw [h1]; exact ⟨id, id, fun _ => rfl⟩
  · rw [h1]; exact ⟨id, id, id⟩
  · rw [h1]; exact ⟨id, id, id⟩
  · rw [h1]; exact ⟨id, id, id⟩
  · exact absurd ⟨hp, hw⟩ hclr

/-- Settles O25: a reset, and of the CTRL writes an accepted CLR, are all that keep not every flag. -/
theorem errorFlagsSticky : Obligations.ErrorFlagsSticky := by
  unfold Obligations.ErrorFlagsSticky
  intro s t k x y h hx hy hoff
  have hnot : ¬FlagsKept x.eng y.eng := by
    rintro ⟨hcmd, hbusy, hnokey⟩
    obtain ⟨hset, hclear⟩ | ⟨hset, hclear⟩ | ⟨hset, hclear⟩ := hoff
    · exact absurd ((hcmd hset).symm.trans hclear) nofun
    · exact absurd ((hbusy hset).symm.trans hclear) nofun
    · exact absurd ((hnokey hset).symm.trans hclear) nofun
  obtain ⟨key, din, h1⟩ | ⟨w, rest, ht, hp, h1⟩ | ⟨-, h1⟩ | ⟨hr, -⟩ := step_slot h hx hy
  · exact absurd (h1 ▸ ⟨id, id, id⟩) hnot
  · by_cases hclr : x.eng.phase = .idle ∧ w = 4#32
    · obtain ⟨hidle, rfl⟩ := hclr
      exact .inr ⟨ht, hidle, rest, hp⟩
    · exact absurd (h1 ▸ flagsKept_dispatchEffect hclr) hnot
  · exact absurd (h1 ▸ flagsKept_engineStep x.eng) hnot
  · exact .inl hr

/-! KEY_VALID. -/

theorem dispatchEffect_keyValid (w : Word) (e : Engine) :
    (dispatchEffect w e).keyValid = e.keyValid ∨
    (e.phase = .idle ∧ w = 1#32 ∧ (dispatchEffect w e).keyValid = false) := by
  obtain ⟨a, b, c, h1⟩ | ⟨hp, hw, h1⟩ | ⟨dir, -, -, -, h1⟩ | ⟨-, -, h1⟩ := dispatchEffect_writes w e
  · simp [h1]
  · exact .inr ⟨hp, hw, by simp [h1]⟩
  · simp [h1]
  · simp [h1]

theorem engineStep_keyValid (e : Engine) :
    (engineStep e).keyValid = e.keyValid ∨
    (e.phase = .ksched ∧ e.cnt = 15#4 ∧ (engineStep e).keyValid = true) := by
  obtain h1 | ⟨c, d, k, n, -, h1⟩ | ⟨c, d, k, hp, hc, h1⟩ | ⟨l, r, n, h1⟩ | ⟨l, r, o, -, -, h1⟩ := engineStep_writes e
  · simp [h1]
  · simp [h1]
  · exact .inr ⟨hp, hc, by simp [h1]⟩
  · simp [h1]
  · simp [h1]

/-- Settles O26: of everything a step can do, only these change KEY_VALID. -/
theorem keyValidWriters : Obligations.KeyValidWriters := by
  unfold Obligations.KeyValidWriters
  intro s t k x y h hx hy
  obtain ⟨key, din, h1⟩ | ⟨w, rest, ht, hp, h1⟩ | ⟨ht, h1⟩ | ⟨hr, h1⟩ := step_slot h hx hy
  · rw [h1]
    exact ⟨fun hoff hon => absurd (hoff.symm.trans hon) nofun, fun hon hoff => absurd (hon.symm.trans hoff) nofun⟩
  · rw [h1]
    obtain h2 | ⟨hidle, rfl, h2⟩ := dispatchEffect_keyValid w x.eng
    · rw [h2]
      exact ⟨fun hoff hon => absurd (hoff.symm.trans hon) nofun, fun hon hoff => absurd (hon.symm.trans hoff) nofun⟩
    · rw [h2]
      exact ⟨by simp, fun _ _ => .inr ⟨ht, hidle, rest, hp⟩⟩
  · rw [h1]
    obtain h2 | ⟨hphase, hcnt, h2⟩ := engineStep_keyValid x.eng
    · rw [h2]
      exact ⟨fun hoff hon => absurd (hoff.symm.trans hon) nofun, fun hon hoff => absurd (hon.symm.trans hoff) nofun⟩
    · rw [h2]
      exact ⟨fun _ _ => ⟨ht, hphase, hcnt⟩, by simp⟩
  · rw [h1]
    exact ⟨nofun, fun _ _ => .inl hr⟩

/-! DOUT. -/

theorem dispatchEffect_dout (w : Word) (e : Engine) : (dispatchEffect w e).dout = e.dout := by
  obtain ⟨a, b, c, h1⟩ | ⟨-, -, h1⟩ | ⟨dir, -, -, -, h1⟩ | ⟨-, -, h1⟩ := dispatchEffect_writes w e
  · simp [h1]
  · simp [h1]
  · simp [h1]
  · simp [h1]

theorem engineStep_dout (e : Engine) : (engineStep e).dout = e.dout ∨ (e.phase = .block ∧ e.cnt = 15#4) := by
  obtain h1 | ⟨c, d, k, n, -, h1⟩ | ⟨c, d, k, -, -, h1⟩ | ⟨l, r, n, h1⟩ | ⟨l, r, o, hp, hc, h1⟩ := engineStep_writes e
  · simp [h1]
  · simp [h1]
  · simp [h1]
  · simp [h1]
  · exact .inr ⟨hp, hc⟩

/-- Settles O27: no register write and no CTRL write changes DOUT, and of the engine steps only the last one of a block
command. -/
theorem doutWriters : Obligations.DoutWriters := by
  unfold Obligations.DoutWriters
  intro s t k x y h hx hy hne
  obtain ⟨key, din, h1⟩ | ⟨w, rest, -, -, h1⟩ | ⟨ht, h1⟩ | ⟨hr, -⟩ := step_slot h hx hy
  · exact absurd (by rw [h1]) hne
  · exact absurd (by rw [h1, dispatchEffect_dout]) hne
  · obtain h2 | hlast := engineStep_dout x.eng
    · exact absurd (by rw [h1, h2]) hne
    · exact .inr ⟨ht, hlast⟩
  · exact .inl hr

/-! RK. -/

theorem dispatchEffect_rk (w : Word) (e : Engine) : (dispatchEffect w e).rk = e.rk := by
  obtain ⟨a, b, c, h1⟩ | ⟨-, -, h1⟩ | ⟨dir, -, -, -, h1⟩ | ⟨-, -, h1⟩ := dispatchEffect_writes w e
  · simp [h1]
  · simp [h1]
  · simp [h1]
  · simp [h1]

theorem engineStep_rk (e : Engine) :
    (engineStep e).rk = e.rk ∨ (e.phase = .ksched ∧ ∃ k, (engineStep e).rk = e.rk.set e.cnt.toNat k) := by
  obtain h1 | ⟨c, d, k, n, hp, h1⟩ | ⟨c, d, k, hp, -, h1⟩ | ⟨l, r, n, h1⟩ | ⟨l, r, o, -, -, h1⟩ := engineStep_writes e
  · simp [h1]
  · exact .inr ⟨hp, k, by rw [h1]⟩
  · exact .inr ⟨hp, k, by rw [h1]⟩
  · simp [h1]
  · simp [h1]

/-- Settles O28: only an engine step of a KSCHED stores a round key, and it stores the one of its number. -/
theorem roundKeyWriters : Obligations.RoundKeyWriters := by
  unfold Obligations.RoundKeyWriters
  intro s t k x y h hx hy i hi hne
  obtain ⟨key, din, h1⟩ | ⟨w, rest, -, -, h1⟩ | ⟨ht, h1⟩ | ⟨hr, -⟩ := step_slot h hx hy
  · exact absurd (by rw [h1]) hne
  · exact absurd (by simp only [h1, dispatchEffect_rk]) hne
  · obtain h2 | ⟨hphase, key, h2⟩ := engineStep_rk x.eng
    · exact absurd (by simp only [h1, h2]) hne
    · by_cases hcnt : x.eng.cnt.toNat = i
      · exact .inr ⟨ht, hphase, hcnt⟩
      · exact absurd (by simp only [h1, h2, Vector.getElem_set, if_neg hcnt]) hne
  · exact .inl hr

/-! DONE. -/

theorem dispatchEffect_done (w : Word) (e : Engine) :
    (dispatchEffect w e).done = e.done ∨
    (e.phase = .idle ∧ (w = 4#32 ∨ (e.keyValid = true ∧ (w = 2#32 ∨ w = 3#32))) ∧ (dispatchEffect w e).done = false) := by
  obtain ⟨a, b, c, h1⟩ | ⟨-, -, h1⟩ | ⟨dir, hp, hk, hw, h1⟩ | ⟨hp, hw, h1⟩ := dispatchEffect_writes w e
  · simp [h1]
  · simp [h1]
  · exact .inr ⟨hp, .inr ⟨hk, hw⟩, by simp [h1]⟩
  · exact .inr ⟨hp, .inl hw, by simp [h1]⟩

theorem engineStep_done (e : Engine) :
    (engineStep e).done = e.done ∨ (e.phase = .block ∧ e.cnt = 15#4 ∧ (engineStep e).done = true) := by
  obtain h1 | ⟨c, d, k, n, -, h1⟩ | ⟨c, d, k, -, -, h1⟩ | ⟨l, r, n, h1⟩ | ⟨l, r, o, hp, hc, h1⟩ := engineStep_writes e
  · simp [h1]
  · simp [h1]
  · simp [h1]
  · simp [h1]
  · exact .inr ⟨hp, hc, by rw [h1]⟩

/-- Settles O29: of everything a step can do, only these change DONE. -/
theorem doneWriters : Obligations.DoneWriters := by
  unfold Obligations.DoneWriters
  intro s t k x y h hx hy
  obtain ⟨key, din, h1⟩ | ⟨w, rest, ht, hp, h1⟩ | ⟨ht, h1⟩ | ⟨hr, h1⟩ := step_slot h hx hy
  · rw [h1]
    exact ⟨fun hoff hon => absurd (hoff.symm.trans hon) nofun, fun hon hoff => absurd (hon.symm.trans hoff) nofun⟩
  · rw [h1]
    obtain h2 | ⟨hidle, hw, h2⟩ := dispatchEffect_done w x.eng
    · rw [h2]
      exact ⟨fun hoff hon => absurd (hoff.symm.trans hon) nofun, fun hon hoff => absurd (hon.symm.trans hoff) nofun⟩
    · rw [h2]
      exact ⟨by simp, fun _ _ => .inr ⟨ht, hidle, w, rest, hp, hw⟩⟩
  · rw [h1]
    obtain h2 | ⟨hphase, hcnt, h2⟩ := engineStep_done x.eng
    · rw [h2]
      exact ⟨fun hoff hon => absurd (hoff.symm.trans hon) nofun, fun hon hoff => absurd (hon.symm.trans hoff) nofun⟩
    · rw [h2]
      exact ⟨fun _ _ => ⟨ht, hphase, hcnt⟩, by simp⟩
  · rw [h1]
    exact ⟨nofun, fun _ _ => .inl hr⟩

/-! Other instances. -/

/-- Changing one engine leaves every other slot as it was. -/
theorem State.updAt_getElem?_ne (s : State) {k j : Nat} (f : Engine → Engine) (h : k ≠ j) :
    (s.updAt k f).engines[j]? = s.engines[j]? := by
  simp [h]

/-- Settles O30: the host leaves every engine alone or writes one window, and an engine step or a reset is one
instance's. -/
theorem otherInstancesUntouched : Obligations.OtherInstancesUntouched := by
  unfold Obligations.OtherInstancesUntouched
  intro s t h
  refine ⟨step_bases h, fun k x hx hne => ?_⟩
  obtain ⟨-, hsame, -, -⟩ | ⟨a, v, j, off, z, rest, ht, hp, -, hoff, hz, ha, rfl⟩ | ⟨j, ht, rfl⟩ | ⟨j, ht, rfl⟩ :=
    step_next h
  · exact absurd (by rw [hsame, hx]) hne
  · by_cases hj : j = k
    · subst hj
      obtain rfl : x = z := Option.some.inj (hx.symm.trans hz)
      have hsize : windowSize = 64 := rfl
      exact .inr (.inr ⟨ht, a, v, rest, hp, by omega, by omega⟩)
    · exact absurd (by rw [State.updAt_getElem?_ne _ _ hj]; simpa using hx) hne
  · by_cases hj : j = k
    · exact .inl (hj ▸ ht)
    · exact absurd (by rw [State.updAt_getElem?_ne _ _ hj]; simpa using hx) hne
  · by_cases hj : j = k
    · exact .inr (.inl (hj ▸ ht))
    · exact absurd (by rw [State.updAt_getElem?_ne _ _ hj]; simpa using hx) hne

end Sys2Proof.Machine
end

section
/-!
SUPPORT. Who reads KEY (`10_state.md` R21): two machines that differ in the KEY of one instance go on differing in that
KEY alone, whatever agent moves, unless a CTRL write of KSCHED reaches that instance.
-/

namespace Sys2Proof.Machine

/-- An engine with another KEY. -/
def Engine.setKey (key : Block) (e : Engine) : Engine := { e with key := key }

/-! One engine. -/

theorem readReg_setKey (off : Nat) (key : Block) (e : Engine) : readReg off (e.setKey key) = readReg off e := rfl

theorem engineStep_setKey (key : Block) (e : Engine) : engineStep (e.setKey key) = (engineStep e).setKey key := by
  have hset : e.setKey key = e.withOperands key e.din e.errCmd e.errBusy e.errNokey := rfl
  have hframe : engineStep e = (engineStep e).withOperands e.key e.din e.errCmd e.errBusy e.errNokey :=
    engineSteps_operands 1 e
  rw [hset, engineStep_withOperands, hframe]
  rfl

theorem dispatchEffect_setKey {w : Word} (hw : w ≠ encode .ksched) (key : Block) (e : Engine) :
    dispatchEffect w (e.setKey key) = (dispatchEffect w e).setKey key := by
  have hword : w ≠ 1#32 := hw
  have hphase : (e.setKey key).phase = e.phase := rfl
  have hvalid : (e.setKey key).keyValid = e.keyValid := rfl
  rw [dispatchEffect_eq_ite, dispatchEffect_eq_ite, hphase, hvalid]
  split_ifs <;> rfl

theorem writeReg_setKey (off : Nat) (v : Word) (key : Block) (e : Engine) :
    ∃ key', writeReg off v (e.setKey key) = (writeReg off v e).setKey key' := by
  unfold writeReg
  split_ifs
  · exact ⟨setHi key v, rfl⟩
  · exact ⟨setLo key v, rfl⟩
  · exact ⟨key, rfl⟩
  · exact ⟨key, rfl⟩
  · exact ⟨key, rfl⟩

theorem writeEffect_setKey {off : Nat} {v : Word} (h : ¬(off = 0x00 ∧ v = encode .ksched)) (key : Block) (e : Engine) :
    ∃ key', writeEffect off v (e.setKey key) = (writeEffect off v e).setKey key' := by
  unfold writeEffect
  split
  · next hoff => exact ⟨key, dispatchEffect_setKey (fun hv => h ⟨hoff, hv⟩) key e⟩
  · exact writeReg_setKey off v key e

/-! One machine. -/

theorem State.updAt_updAt_same (s : State) (k : Nat) (f g : Engine → Engine) :
    (s.updAt k f).updAt k g = s.updAt k (g ∘ f) := by
  have hl := List.modify_modify_eq (fun x : Slot => { x with eng := f x.eng }) (fun x => { x with eng := g x.eng }) k
    s.engines
  exact congrArg (fun l => { s with engines := l }) hl

theorem State.updAt_updAt_ne (s : State) {k j : Nat} (f g : Engine → Engine) (h : k ≠ j) :
    (s.updAt k f).updAt j g = (s.updAt j g).updAt k f := by
  have hl := List.modify_modify_ne (fun x : Slot => { x with eng := f x.eng }) (fun x => { x with eng := g x.eng })
    s.engines h
  exact congrArg (fun l => { s with engines := l }) hl

/-- A change of any engine on the machine with the other KEY. -/
theorem State.updAt_setKey {s : State} {k : Nat} {x : Slot} (hx : s.engines[k]? = some x) (key : Block) (j : Nat)
    {g : Engine → Engine} (hg : j = k → ∃ key', g (x.eng.setKey key) = (g x.eng).setKey key') :
    ∃ key', (s.updAt k (Engine.setKey key)).updAt j g = (s.updAt j g).updAt k (Engine.setKey key') := by
  by_cases hj : j = k
  · obtain ⟨key', hkey⟩ := hg hj
    subst hj
    refine ⟨key', ?_⟩
    rw [State.updAt_updAt_same, State.updAt_updAt_same, State.updAt_eq_putEngine hx, State.updAt_eq_putEngine hx]
    exact congrArg (s.putEngine j x) hkey
  · exact ⟨key, State.updAt_updAt_ne s _ _ (Ne.symm hj)⟩

theorem State.resolve_updAt (s : State) (k a w : Nat) (f : Engine → Engine) :
    (s.updAt k f).resolve a w = s.resolve a w := by
  rw [State.resolve, State.resolve, findWindow_congr (State.updAt_bases s k f)]

/-- A read sees an engine through its registers alone. -/
theorem busRead_updAt {f : Engine → Engine} (hf : ∀ off e, readReg off (f e) = readReg off e) (s : State)
    (k a w : Nat) : busRead a w (s.updAt k f) = busRead a w s := by
  rw [busRead, busRead, State.resolve_updAt]
  cases s.resolve a w with
  | error _ => rfl
  | ok p =>
    simp only [State.engineAt_updAt]
    cases s.engineAt p.1 with
    | none => simp
    | some e => by_cases hk : k = p.1 <;> simp [hk, hf]

theorem withRead_updAt {f : Engine → Engine} (hf : ∀ off e, readReg off (f e) = readReg off e) {s t : State} {a : Nat}
    {g g' : Word → State} (k : Nat) (hg : ∀ w, g' w = (g w).updAt k f) (h : withRead a s g = .next t) :
    withRead a (s.updAt k f) g' = .next (t.updAt k f) := by
  obtain ⟨w, hw, rfl⟩ := withRead_next h
  rw [withRead, busRead_updAt hf, hw]
  exact congrArg Host.Outcome.next (hg w)

/-- A statement that is no bus write sees an engine through its registers alone. -/
theorem hostStmt_updAt {f : Engine → Engine} (hf : ∀ off e, readReg off (f e) = readReg off e) {s t : State}
    {st : HostStmt} (hst : ∀ a w v, st ≠ .bus (.write a w v)) (k : Nat) (h : hostStmt st s = .next t) :
    hostStmt st (s.updAt k f) = .next (t.updAt k f) := by
  cases st with
  | bus acc =>
    cases acc with
    | write a w v => exact absurd rfl (hst a w v)
    | read a w =>
      simp only [hostStmt, busRead_updAt hf] at h ⊢
      split at h
      · cases h; rfl
      · cases h
  | poll a mask value => exact withRead_updAt hf k (fun w => by split <;> rfl) h
  | check base => exact withRead_updAt hf k (fun w => by split <;> rfl) h
  | transform c =>
    simp only [hostStmt] at h ⊢
    by_cases hcap : c.cap < paddedOf c
    · rw [if_pos hcap] at h ⊢
      cases h; rfl
    · by_cases hoverlap : overlapsPartly c
      · rw [if_neg hcap, if_pos hoverlap] at h
        cases h
      · rw [if_neg hcap, if_neg hoverlap] at h ⊢
        cases h; rfl
  | feedBlock base c p i => cases h; rfl
  | readOutHi base a => exact withRead_updAt hf k (fun _ => rfl) h
  | readOutLo base a hi => exact withRead_updAt hf k (fun _ => rfl) h
  | storeBlock a v => cases h; rfl
  | ret n => cases h; rfl

/-- A bus write on the machine with the other KEY. -/
theorem busWrite_setKey {s t : State} {k : Nat} {x : Slot} (hx : s.engines[k]? = some x) (key : Block) {a w : Nat}
    {v : Word} (hksched : ¬(a = x.base ∧ w = 32 ∧ v = encode .ksched)) (h : busWrite a w v s = .next t) :
    ∃ key', busWrite a w v (s.updAt k (Engine.setKey key)) = .next (t.updAt k (Engine.setKey key')) := by
  cases hr : s.resolve a w with
  | error f => rw [busWrite_error v hr] at h; cases h
  | ok p =>
    obtain ⟨j, off⟩ := p
    obtain ⟨hw, -, -, z, hz, ha⟩ := State.resolve_ok hr
    have hcmd : j = k → ¬(off = 0x00 ∧ v = encode .ksched) := by
      rintro rfl ⟨rfl, hv⟩
      obtain rfl : x = z := Option.some.inj (hx.symm.trans hz)
      exact hksched ⟨ha, hw, hv⟩
    rw [busWrite_ok v hr] at h
    cases h
    rw [busWrite_ok v ((State.resolve_updAt ..).trans hr)]
    obtain ⟨key', hkey⟩ := State.updAt_setKey (s := { s with sel := j }) hx key j
      fun hj => writeEffect_setKey (hcmd hj) key x.eng
    exact ⟨key', congrArg Host.Outcome.next hkey⟩

theorem hostTurn_setKey {s t : State} {k : Nat} {x : Slot} (hx : s.engines[k]? = some x) (key : Block)
    (hksched : ¬∃ rest, s.prog = .bus (.write x.base 32 (encode .ksched)) :: rest) (h : hostTurn s = .next t) :
    ∃ key', hostTurn (s.updAt k (Engine.setKey key)) = .next (t.updAt k (Engine.setKey key')) := by
  unfold hostTurn at h ⊢
  rw [State.updAt_prog]
  split at h
  · cases h; exact ⟨key, rfl⟩
  · next st rest hp =>
    by_cases hst : ∃ a w v, st = .bus (.write a w v)
    · obtain ⟨a, w, v, rfl⟩ := hst
      refine busWrite_setKey (s := { s with prog := rest }) hx key ?_ h
      rintro ⟨rfl, rfl, rfl⟩
      exact hksched ⟨rest, hp⟩
    · exact ⟨key, hostStmt_updAt (readReg_setKey · key) (fun a w v hw => hst ⟨a, w, v, hw⟩) k h⟩

theorem State.takeTurn_updAt (s : State) (k : Nat) (f : Engine → Engine) :
    (s.updAt k f).takeTurn = s.takeTurn.updAt k f := by
  unfold State.takeTurn
  rw [State.updAt_turns]
  split <;> rfl

theorem State.turn_updAt (s : State) (k : Nat) (f : Engine → Engine) : (s.updAt k f).turn = s.turn := rfl

/-- Settles O24: the other KEY goes through each agent's move. -/
theorem keyReadOnlyByKsched : Obligations.KeyReadOnlyByKsched := by
  unfold Obligations.KeyReadOnlyByKsched
  intro s t k x v hx h hksched
  have htake : s.takeTurn.engines[k]? = some x := by simpa using hx
  have hmove : ∃ v', step (s.updAt k (Engine.setKey v)) = .next (t.updAt k (Engine.setKey v')) := by
    unfold step at h ⊢
    rw [State.turn_updAt, State.takeTurn_updAt]
    cases ht : s.turn with
    | host =>
      rw [ht] at h
      exact hostTurn_setKey htake v (fun ⟨rest, hp⟩ => hksched ⟨ht, rest, s.takeTurn_prog.symm.trans hp⟩) h
    | engine j =>
      rw [ht] at h
      cases h
      obtain ⟨v', hv⟩ := State.updAt_setKey htake v j fun _ => ⟨v, engineStep_setKey v x.eng⟩
      exact ⟨v', congrArg Host.Outcome.next hv⟩
    | reset j =>
      rw [ht] at h
      cases h
      obtain ⟨v', hv⟩ := State.updAt_setKey (g := fun _ => Engine.reset) htake v j fun _ => ⟨Engine.reset.key, rfl⟩
      exact ⟨v', congrArg Host.Outcome.next hv⟩
  obtain ⟨v', hv⟩ := hmove
  have hk : k < t.engines.length := step_length h ▸ (List.getElem?_eq_some_iff.1 hx).1
  have hy : t.engines[k]? = some t.engines[k] := List.getElem?_eq_getElem hk
  rw [State.updAt_eq_putEngine hx, State.updAt_eq_putEngine hy] at hv
  exact ⟨t.engines[k], v', hy, hv⟩

end Sys2Proof.Machine
end

section
/-!
SUPPORT. The decoder by fields (`30_encoding.md` R81, R82, R85), and the step that runs a decoded command.
-/

namespace Sys2Proof.Machine

theorem ofNat_toNat_mod (w : Word) : BitVec.ofNat 32 (w.toNat % 2 ^ 32) = w := by
  rw [Nat.mod_eq_of_lt w.isLt, BitVec.ofNat_toNat, BitVec.setWidth_eq]

theorem decodeTableWord_encode (i : Instr) : decodeTableWord 32 (encode i).toNat = some i := by
  rw [decodeTableWord, ofNat_toNat_mod, decode_encode]

/-- Settles O2: the decoder and the encoder by `decode_encode` and `decode_eq_cmd_iff`. -/
theorem decodeEncodeAgree : Obligations.DecodeEncodeAgree := by
  unfold Obligations.DecodeEncodeAgree
  refine ⟨fun i _ => ?_, fun w i => decode_eq_cmd_iff.1⟩
  obtain ⟨-, hproper, -⟩ := properWord i
  exact ⟨decode_encode i, decodeTableWord_encode i, hproper⟩

/-- A word is its RSVD field above its CMD field (R81). -/
theorem toNat_eq_fields (w : Word) : w.toNat = 16 * (w.extractLsb' 4 28).toNat + (w.extractLsb' 0 4).toNat := by
  simp only [BitVec.extractLsb'_toNat, Nat.shiftRight_eq_div_pow]
  omega

theorem five_le_toNat_iff (w : Word) :
    5 ≤ w.toNat ↔ w.extractLsb' 4 28 ≠ 0#28 ∨ 5 ≤ (w.extractLsb' 0 4).toNat := by
  have hfields := toNat_eq_fields w
  have hrsvd : w.extractLsb' 4 28 = 0#28 ↔ (w.extractLsb' 4 28).toNat = 0 := BitVec.toNat_eq.trans (by simp)
  rw [Ne, hrsvd]
  omega

/-- A word is reserved where it is none of the five command words (R85). -/
theorem decode_eq_reserved_iff (w : Word) : decode w = .reserved w ↔ 5 ≤ w.toNat := by
  refine ⟨five_le_toNat_of_reserved, fun h => ?_⟩
  obtain ⟨i, rfl⟩ | hreserved := eq_encode_or_decode_eq_reserved w
  · exact absurd h (by cases i <;> decide)
  · exact hreserved

/-- Settles O3: the reserved words are those from 5 on, read by fields. -/
theorem reservedWordsExact : Obligations.ReservedWordsExact := by
  unfold Obligations.ReservedWordsExact
  refine fun w => ⟨(decode_eq_reserved_iff w).trans (five_le_toNat_iff w), fun v hv => ?_⟩
  obtain ⟨i, rfl⟩ | hreserved := eq_encode_or_decode_eq_reserved w
  · cases (decode_encode i).symm.trans hv
  · exact Decoded.reserved.inj (hv.symm.trans hreserved)

/-- Settles O4: the five command words are those `encode` computes, and the three others are from 5 on. -/
theorem writtenWordsDecode : Obligations.WrittenWordsDecode := by
  unfold Obligations.WrittenWordsDecode
  exact ⟨decode_encode .nop, decode_encode .ksched, decode_encode .enc, decode_encode .dec, decode_encode .clr,
    (decode_eq_reserved_iff _).2 (by decide), (decode_eq_reserved_iff _).2 (by decide),
    (decode_eq_reserved_iff _).2 (by decide)⟩

theorem dispatch_of_cmd {w : Word} {i : Instr} (h : decode w = .cmd i) (s : State) : dispatch w s = exec i s := by
  simp only [dispatch, h]

/-- Settles O5: a write to CTRL is the dispatch of its word. -/
theorem stepRunsCommand : Obligations.StepRunsCommand := by
  unfold Obligations.StepRunsCommand
  intro s k x i w ts rest hpf hx _ hdecode ht hp
  rw [step_write_ctrl (off := 0x00) hpf hx rfl ht hp, dispatch_of_cmd hdecode]

/-- Settles O6: the statement put in front writes the word to CTRL of the selected instance, which exists. -/
theorem fetchWordRunsCommand : Obligations.FetchWordRunsCommand := by
  unfold Obligations.FetchWordRunsCommand
  intro s i hpf _
  have hx : s.engines[s.sel]? = some s.engines[s.sel] := List.getElem?_eq_getElem hpf.1
  have hprog : (s.withFetchWord 32 (encode i).toNat).prog =
      .bus (.write (s.engines[s.sel].base + 0) 32 (encode i)) :: s.prog := by
    rw [State.withFetchWord, State.ctrlAddr_of_slot hx, ofNat_toNat_mod, Nat.add_zero]
  rw [step_write_ctrl (s := s.withFetchWord 32 (encode i).toNat) hpf hx rfl rfl hprog, dispatch_of_cmd (decode_encode i)]
  rfl

/-! KSCHED, ENC and DEC: the gate rejects with one flag, or the command is accepted (`44_control_commands.md` R200). -/

/-- Settles O9: KSCHED passes the gate without a key, so PHASE alone decides. -/
theorem kschedCommand : Obligations.KschedCommand := by
  unfold Obligations.KschedCommand
  intro s x hx
  refine ⟨fun hidle => ?accepted, fun hbusy => ?busy⟩
  case accepted => rw [exec_of_slot .ksched hx, commandEffect, commandGate_accept false _ hidle nofun]; rfl
  case busy => rw [exec_of_slot .ksched hx, commandEffect, commandGate_busy false _ hbusy]; rfl

/-- ENC and DEC at the gate, whichever of the two stands for the direction. -/
theorem exec_block {s : State} {x : Slot} (hx : s.engines[s.sel]? = some x) {i : Instr} {dir : Dir}
    (hi : commandEffect i = commandGate true (blockAccept dir)) :
    (x.eng.phase = .idle → x.eng.keyValid = true → exec i s = .next (s.putEngine s.sel x (blockAccept dir x.eng))) ∧
    (x.eng.phase ≠ .idle → exec i s = .next (s.putEngine s.sel x (x.eng.raise .busy))) ∧
    (x.eng.phase = .idle → x.eng.keyValid = false → exec i s = .next (s.putEngine s.sel x (x.eng.raise .nokey))) := by
  rw [exec_of_slot i hx, hi]
  refine ⟨fun hidle hkey => ?accepted, fun hbusy => ?busy, fun hidle hkey => ?nokey⟩
  case accepted => rw [commandGate_accept true _ hidle fun _ => hkey]
  case busy => rw [commandGate_busy true _ hbusy]
  case nokey => rw [commandGate_nokey _ hidle hkey]

/-- Settles O10: the gate of a block command, with R185's acceptance written out. -/
theorem encCommand : Obligations.EncCommand := by
  unfold Obligations.EncCommand
  exact fun s x hx => exec_block hx (i := .enc) (dir := .enc) rfl

/-- Settles O11: the gate of a block command, with R186's acceptance written out. -/
theorem decCommand : Obligations.DecCommand := by
  unfold Obligations.DecCommand
  exact fun s x hx => exec_block hx (i := .dec) (dir := .dec) rfl

/-! An idle engine, and the registers after reset. -/

/-- Settles O15: the turn of an idle engine puts that engine back as it was. -/
theorem idleEngineTakesNoStep : Obligations.IdleEngineTakesNoStep := by
  unfold Obligations.IdleEngineTakesNoStep
  intro s k x ts ht hx hidle
  rw [step_engine ht hx, engineStep_idle hidle, ← State.updAt_eq_putEngine (s := { s with turns := ts }) hx fun e => e]
  exact congrArg Host.Outcome.next (State.updAt_id _ k)

/-- Settles O17: the reads of the register map on `Engine.reset`. -/
theorem registersAfterReset : Obligations.RegistersAfterReset := by
  unfold Obligations.RegistersAfterReset
  have hpf : State.reset.PlatformOk := by decide
  have hread : ∀ off, off < 64 → off % 4 = 0 → busRead off 32 State.reset = .ok (readReg off Engine.reset) := by
    intro off hoff h4
    have h := busRead_of_slot (k := 0) (x := { base := 0, eng := Engine.reset }) hpf rfl hoff h4
    rwa [Nat.zero_add] at h
  refine ⟨?_, ?_, ?_, ?_, ?_, ?_⟩
  · rw [hread 0x04 (by decide) rfl, readReg_status, statusWord_reset]
  · exact hread 0x10 (by decide) rfl
  · exact hread 0x14 (by decide) rfl
  · exact hread 0x18 (by decide) rfl
  · exact hread 0x1C (by decide) rfl
  · exact hread 0x20 (by decide) rfl

/-! Accesses outside every window, and whole registers. -/

theorem findWindow_outside {l : List Slot} {a : Nat} (h : ∀ x ∈ l, a < x.base ∨ x.base + 64 ≤ a) :
    findWindow l a = none := by
  induction l with
  | nil => rfl
  | cons x l ih =>
    have hx := h x List.mem_cons_self
    have hsize : windowSize = 64 := rfl
    rw [findWindow, if_neg (by omega), ih fun y hy => h y (List.mem_cons_of_mem _ hy)]
    rfl

theorem State.resolve_outside {s : State} {a : Nat} (h : ∀ x ∈ s.engines, a < x.base ∨ x.base + 64 ≤ a) (w : Nat) :
    s.resolve a w = .error (.noWindow a) := by
  simp only [State.resolve, findWindow_outside h]

/-- Settles O20: the address is resolved to no window, for a read and a write alike. -/
theorem accessOutsideWindowsFaults : Obligations.AccessOutsideWindowsFaults := by
  unfold Obligations.AccessOutsideWindowsFaults
  intro s a width v ts rest houtside ht hp
  have hresolve : ({ s with turns := ts, prog := rest } : State).resolve a width = .error (.noWindow a) :=
    State.resolve_outside houtside width
  obtain hp | hp := hp
  · rw [step_host ht hp, hostStmt, busRead_error hresolve]
  · rw [step_host ht hp, hostStmt, busWrite_error v hresolve]

theorem setLo_setHi (x v : Block) : setLo (setHi x (hiHalf v)) (loHalf v) = v := by
  simp [setLo, setHi]

theorem setHi_setLo (x v : Block) : setHi (setLo x (loHalf v)) (hiHalf v) = v := by
  simp [setLo, setHi]

theorem writeReg_key (v : Block) (e : Engine) :
    writeReg 0x0C (loHalf v) (writeReg 0x08 (hiHalf v) e) = { e with key := v } :=
  congrArg (fun key => { e with key := key }) (setLo_setHi e.key v)

theorem writeReg_din (v : Block) (e : Engine) :
    writeReg 0x14 (loHalf v) (writeReg 0x10 (hiHalf v) e) = { e with din := v } :=
  congrArg (fun din => { e with din := din }) (setLo_setHi e.din v)

/-- Settles O22: the two halves make the value in either order. -/
theorem halvesWriteWholeRegister : Obligations.HalvesWriteWholeRegister := by
  unfold Obligations.HalvesWriteWholeRegister
  exact fun e v => ⟨writeReg_key v e, congrArg (fun key => { e with key := key }) (setHi_setLo e.key v),
    writeReg_din v e, congrArg (fun din => { e with din := din }) (setHi_setLo e.din v)⟩

/-! POLL, CHECK and the other pseudo-instructions (`30_encoding.md` R89, R90). -/

theorem withRead_of_busRead {a : Nat} {s : State} {w : Word} (h : busRead a 32 s = .ok w) (f : Word → State) :
    withRead a s f = .next (f w) := by
  simp only [withRead, h]

/-- Settles O57: POLL puts itself back where the word does not match. -/
theorem pollLoops : Obligations.PollLoops := by
  unfold Obligations.PollLoops
  intro s a mask value w ts rest ht hp hread
  have hpoll : step s = .next (if w &&& mask = value then ({ s with turns := ts, prog := rest } : State).record w
      else ({ s with turns := ts, prog := rest } : State).prepend [.poll a mask value]) := by
    rw [step_host ht hp, hostStmt]
    exact withRead_of_busRead (s := { s with turns := ts, prog := rest }) hread _
  refine ⟨fun hmatch => ?ends, fun hmatch => ?stays⟩
  case ends => rw [hpoll, if_pos hmatch]; rfl
  case stays => rw [hpoll, if_neg hmatch, State.prepend, List.singleton_append, ← hp]

/-- Settles O58: each expansion is computed, and CHECK reads STATUS. -/
theorem pseudoInstructions : Obligations.PseudoInstructions := by
  unfold Obligations.PseudoInstructions
  refine ⟨fun b => ⟨rfl, rfl, rfl, rfl, rfl, rfl, rfl, fun v => ⟨rfl, rfl⟩⟩, fun s b w ts rest ht hp hread => ?check⟩
  case check =>
    have hcheck : step s = .next (if w &&& checkMask = 0#32 then ({ s with turns := ts, prog := rest } : State).record w
        else { ({ s with turns := ts, prog := rest } : State).record w with failed := true, prog := [] }) := by
      rw [step_host ht hp, hostStmt]
      exact withRead_of_busRead (s := { s with turns := ts, prog := rest }) hread _
    exact ⟨fun hclear => hcheck.trans (congrArg _ (if_pos hclear)), fun hset => hcheck.trans (congrArg _ (if_neg hset))⟩

end Sys2Proof.Machine
end

section
/-!
SUPPORT. The host procedure over the memory (`45_host_transform.md` R223 to R230): packing, which buffers are proper,
and what each byte of the memory is after the blocks.
-/

namespace Sys2Proof.Machine

/-! Packing (`45_host_transform.md` R227). -/

theorem unpack64_getElem (x : Block) (j : Nat) (h : j < 8) : (unpack64 x)[j] = x.extractLsb' (56 - 8 * j) 8 := by
  interval_cases j <;> rfl

theorem extractLsb'_append_byte (x : Block) (a n : Nat) :
    x.extractLsb' (a + 8) n ++ x.extractLsb' a 8 = x.extractLsb' a (n + 8) :=
  BitVec.extractLsb'_append_extractLsb'_eq_extractLsb' rfl

theorem pack64_unpack64 (x : Block) : pack64 (unpack64 x) = x := by
  have hjoin := extractLsb'_append_byte x
  show x.extractLsb' (48 + 8) 8 ++ x.extractLsb' 48 8 ++ x.extractLsb' 40 8 ++ x.extractLsb' 32 8 ++
    x.extractLsb' 24 8 ++ x.extractLsb' 16 8 ++ x.extractLsb' 8 8 ++ x.extractLsb' 0 8 = x
  rw [hjoin 48 8, hjoin 40 16, hjoin 32 24, hjoin 24 32, hjoin 16 40, hjoin 8 48, hjoin 0 56]
  exact BitVec.extractLsb'_eq_self

theorem unpack64_pack64 (b : Vector Byte 8) : unpack64 (pack64 b) = b := by
  apply Vector.ext
  intro j hj
  rw [unpack64_getElem _ j hj, pack64]
  interval_cases j <;>
    simp (disch := omega) only [BitVec.extractLsb'_append_eq_of_le, BitVec.extractLsb'_append_eq_of_add_le,
      Nat.reduceSub, Nat.reduceMul, BitVec.extractLsb'_eq_self]

/-- Settles O51: the byte positions by `unpack64_getElem`, and the two inverses. -/
theorem packingIsBigEndian : Obligations.PackingIsBigEndian := by
  unfold Obligations.PackingIsBigEndian
  exact ⟨unpack64_getElem, pack64_unpack64, unpack64_pack64⟩

/-! Proper buffers (`45_host_transform.md` R229). -/

theorem overlapsPartly_iff (c : Call) :
    overlapsPartly c = true ↔
      c.out ≠ c.inp ∧ c.inp < c.out + paddedLength c.length ∧ c.out < c.inp + paddedLength c.length := by
  rw [overlapsPartly, Bool.and_eq_true, Bool.and_eq_true, bne_iff_ne, decide_eq_true_iff, decide_eq_true_iff, and_assoc]
  rfl

theorem transform_refused {c : Call} (hcap : paddedLength c.length ≤ c.cap) (h : overlapsPartly c = true)
    (pad : Nat → Byte) (m : Memory) : transform c pad m = .refused .partialOverlap :=
  (if_neg (Nat.not_lt.2 hcap)).trans (if_pos h)

theorem transform_returned {c : Call} (hcap : paddedLength c.length ≤ c.cap) (h : ¬overlapsPartly c = true)
    (pad : Nat → Byte) (m : Memory) :
    transform c pad m = .next (.returned (paddedLength c.length),
      transformBlocks c (keySchedule (pack64 c.key)) pad m (paddedLength c.length / 8)) :=
  (if_neg (Nat.not_lt.2 hcap)).trans (if_neg h)

/-- A call of the procedure that goes on: the capacity error, or proper buffers and the blocks. -/
theorem transform_next {c : Call} {pad : Nat → Byte} {m m' : Memory} {r : ProcResult}
    (h : transform c pad m = .next (r, m')) :
    (c.cap < paddedLength c.length ∧ r = .capacityError (paddedLength c.length) c.cap ∧ m' = m) ∨
    (paddedLength c.length ≤ c.cap ∧ ¬overlapsPartly c = true ∧ r = .returned (paddedLength c.length) ∧
      m' = transformBlocks c (keySchedule (pack64 c.key)) pad m (paddedLength c.length / 8)) := by
  by_cases hcap : c.cap < paddedLength c.length
  · rw [transform_of_cap_lt hcap] at h
    cases h
    exact .inl ⟨hcap, rfl, rfl⟩
  · by_cases hoverlap : overlapsPartly c = true
    · rw [transform_refused (Nat.not_lt.1 hcap) hoverlap] at h
      cases h
    · rw [transform_returned (Nat.not_lt.1 hcap) hoverlap] at h
      cases h
      exact .inr ⟨Nat.not_lt.1 hcap, hoverlap, rfl, rfl⟩

/-- The host's statement with the capacity enough. -/
theorem hostStmt_transform {c : Call} (hcap : paddedLength c.length ≤ c.cap) (s : State) :
    hostStmt (.transform c) s =
      if overlapsPartly c then .refused .partialOverlap
      else .next { s.prepend (callProgram c s.padDraws) with padDraws := s.padDraws + 1 } :=
  if_neg (Nat.not_lt.2 hcap)

/-- Settles O53: past the capacity check the overlap alone decides, for the step and for the procedure. -/
theorem partialOverlapRefused : Obligations.PartialOverlapRefused := by
  unfold Obligations.PartialOverlapRefused
  intro c s ts rest hcap ht hp
  refine ⟨fun hpartly => ?refused, fun hproper => ?goesOn⟩
  case refused =>
    have hoverlap := (overlapsPartly_iff c).2 hpartly
    exact ⟨by rw [step_host ht hp, hostStmt_transform hcap, if_pos hoverlap], transform_refused hcap hoverlap⟩
  case goesOn =>
    have hoverlap : ¬overlapsPartly c = true := by
      rw [overlapsPartly_iff]
      omega
    refine ⟨?_, fun pad m => ⟨_, transform_returned hcap hoverlap pad m⟩⟩
    rw [step_host ht hp, hostStmt_transform hcap, if_neg hoverlap]
    exact ⟨_, rfl⟩

/-! The bytes of the memory after the blocks. -/

theorem read_transformBlocks_outside (c : Call) (rk : Vector RoundKey 16) (pad : Nat → Byte) (m : Memory) {n a : Nat}
    (h : a < c.out ∨ c.out + 8 * n ≤ a) : (transformBlocks c rk pad m n).read a = m.read a := by
  induction n with
  | zero => rfl
  | succ n ih => rw [transformBlocks, read_storeBlock_outside _ _ _ _ (by omega), ih (by omega)]

/-- Byte `i` of output block `j` is not written again. -/
theorem read_transformBlocks_inside (c : Call) (rk : Vector RoundKey 16) (pad : Nat → Byte) (m : Memory) {n j i : Nat}
    (hj : j < n) (hi : i < 8) :
    (transformBlocks c rk pad m n).read (c.out + 8 * j + i) =
      some (unpack64 (network rk c.dir (inBlock c pad (transformBlocks c rk pad m j) (8 * j))))[i] := by
  induction n with
  | zero => exact absurd hj (Nat.not_lt_zero j)
  | succ n ih =>
    rw [transformBlocks]
    by_cases hjn : j = n
    · subst hjn
      exact read_storeBlock_inside _ _ i _ hi
    · rw [read_storeBlock_outside _ _ _ _ (by omega), ih (by omega)]

theorem inBlock_congr {c : Call} {pad : Nat → Byte} {m m' : Memory} {i : Nat}
    (h : ∀ t, t < 8 → m'.read (c.inp + (i + t)) = m.read (c.inp + (i + t))) :
    inBlock c pad m' i = inBlock c pad m i := by
  unfold inBlock inByte
  congr 2
  funext t
  rw [h t.val t.isLt]

/-- With proper buffers the blocks before block `j` leave its input as it was before the call. -/
theorem inBlock_transformBlocks {c : Call} (hproper : ¬overlapsPartly c = true) (rk : Vector RoundKey 16)
    (pad : Nat → Byte) (m : Memory) {j : Nat} (hj : 8 * j + 8 ≤ paddedLength c.length) :
    inBlock c pad (transformBlocks c rk pad m j) (8 * j) = inBlock c pad m (8 * j) := by
  rw [overlapsPartly_iff] at hproper
  exact inBlock_congr fun t ht => read_transformBlocks_outside c rk pad m (by omega)

/-- Settles O54: block `j` is written once, from an input that no earlier block has touched. -/
theorem transformBlockBytes : Obligations.TransformBlockBytes := by
  unfold Obligations.TransformBlockBytes
  intro c pad m m' r h hcap
  obtain ⟨hsmall, -, -⟩ | ⟨-, hproper, hr, rfl⟩ := transform_next h
  · omega
  · refine ⟨hr, fun j i hi hj => ?_⟩
    rw [read_transformBlocks_inside _ _ _ _ (by omega) hi, inBlock_transformBlocks hproper _ _ _ hj]

/-- Settles O55: the blocks fill `out` to `out` plus the padded length, a multiple of 8. -/
theorem transformFrame : Obligations.TransformFrame := by
  unfold Obligations.TransformFrame
  intro c pad m m' r h
  obtain ⟨-, -, rfl⟩ | ⟨-, -, -, rfl⟩ := transform_next h
  · exact ⟨id, fun a _ => rfl⟩
  · have hpad := paddedLength_mod_eight c.length
    exact ⟨fun hm => transformBlocks_wf c _ pad m hm _,
      fun a ha => read_transformBlocks_outside c _ pad m (by omega)⟩

/-! There and back. -/

theorem inByte_of_read {c : Call} {pad : Nat → Byte} {m : Memory} {j : Nat} {v : Byte} (hj : j < c.length)
    (h : m.read (c.inp + j) = some v) : inByte c pad m j = v := by
  rw [inByte, if_pos (.inl hj), h]
  rfl

/-- A block whose bytes are all in memory. -/
theorem inBlock_of_read {c : Call} {pad : Nat → Byte} {m : Memory} {i : Nat} {b : Vector Byte 8}
    (hi : i + 8 ≤ c.length) (h : ∀ t (ht : t < 8), m.read (c.inp + (i + t)) = some b[t]) :
    inBlock c pad m i = pack64 b := by
  rw [inBlock]
  congr 1
  apply Vector.ext
  intro t ht
  rw [Vector.getElem_ofFn]
  exact inByte_of_read (by omega) (h t ht)

/-- What a byte of a block that comes back is. -/
theorem unpack64_inBlock (c : Call) (pad : Nat → Byte) (m : Memory) (i : Nat) {t : Nat} (ht : t < 8) :
    (unpack64 (inBlock c pad m i))[t] = inByte c pad m (i + t) := by
  simp only [inBlock, unpack64_pack64, Vector.getElem_ofFn]

/-- Settles O56: the second call reads the network's value of each block, and the network is undone. -/
theorem transformRoundTrip : Obligations.TransformRoundTrip := by
  unfold Obligations.TransformRoundTrip
  intro c dst cap2 pad pad' m m1 m2 r1 r2 hlen hcap hcap2 hin h1 h2 i hi
  have hpad : paddedLength c.length = c.length := paddedLength_of_mod_eq_zero hlen
  obtain ⟨-, hout1⟩ := transformBlockBytes _ _ _ _ _ h1 (hpad.trans_le hcap)
  obtain ⟨-, hout2⟩ := transformBlockBytes _ _ _ _ _ h2 (hpad.trans_le hcap2)
  have hj : 8 * (i / 8) + 8 ≤ c.length := by omega
  have ht : i % 8 < 8 := Nat.mod_lt _ (by decide)
  have hsplit : 8 * (i / 8) + i % 8 = i := Nat.div_add_mod i 8
  have hsecond : inBlock { c with dir := .dec, inp := c.out, out := dst, cap := cap2 } pad' m1 (8 * (i / 8)) =
      network (keySchedule (pack64 c.key)) .enc (inBlock c pad m (8 * (i / 8))) := by
    rw [← pack64_unpack64 (network _ _ _)]
    refine inBlock_of_read hj fun t ht => ?_
    rw [← Nat.add_assoc]
    exact hout1 (i / 8) t ht (hj.trans_eq hpad.symm)
  obtain ⟨v, hv⟩ := hin i hi
  calc m2.read (dst + i) = m2.read (dst + 8 * (i / 8) + i % 8) := by rw [Nat.add_assoc, hsplit]
    _ = some (unpack64 (network (keySchedule (pack64 c.key)) .dec (inBlock
          { c with dir := .dec, inp := c.out, out := dst, cap := cap2 } pad' m1 (8 * (i / 8)))))[i % 8] :=
      hout2 (i / 8) (i % 8) ht (hj.trans_eq hpad.symm)
    _ = some (inByte c pad m i) := by rw [hsecond, network_dec_enc, unpack64_inBlock c pad m _ ht, hsplit]
    _ = m.read (c.inp + i) := by rw [inByte_of_read hi hv, hv]

end Sys2Proof.Machine
end

section
/-!
SUPPORT. Progress under weak fairness (`70_reset_and_hazards.md` R281): along a schedule the steps a command still needs
never rise while it runs, and each engine step takes one off.
-/

namespace Sys2Proof.Machine

/-! One engine along a schedule. -/

/-- An engine that is busy for ever takes engine steps for ever, and has not that many to take. -/
theorem exists_idle_of_fair {k : Nat} {sched : Nat → Agent} (e : Nat → Engine)
    (hkeep : ∀ n, (e n).phase ≠ .idle → stepsLeft (e (n + 1)) ≤ stepsLeft (e n))
    (hstep : ∀ n, sched n = .engine k → e (n + 1) = engineStep (e n))
    (hfair : ∀ n, (∀ m, n ≤ m → (e m).phase ≠ .idle) → ∃ m, n ≤ m ∧ sched m = .engine k) :
    ∃ n, (e n).phase = .idle := by
  by_contra hnever
  have hbusy : ∀ n, (e n).phase ≠ .idle := not_exists.1 hnever
  have hanti : Antitone fun n => stepsLeft (e n) := antitone_nat_of_succ_le fun n => hkeep n (hbusy n)
  have hbounded : ∀ d n, ¬stepsLeft (e n) ≤ d := by
    intro d
    induction d with
    | zero => exact fun n h0 => hbusy n ((stepsLeft_eq_zero _).1 (Nat.le_zero.1 h0))
    | succ d ih =>
      intro n hd
      obtain ⟨m, hnm, hm⟩ := hfair n fun m _ => hbusy m
      have hdown : stepsLeft (e m) ≤ stepsLeft (e n) := hanti hnm
      apply ih (m + 1)
      rw [hstep m hm, stepsLeft_engineStep]
      omega
  exact hbounded _ 0 le_rfl

theorem stepsLeft_engineStep_le (e : Engine) : stepsLeft (engineStep e) ≤ stepsLeft e :=
  (stepsLeft_engineStep e).trans_le (Nat.sub_le ..)

/-! The machine along a schedule. -/

/-- One more turn of a schedule, from the state after the turns before it. -/
theorem runTurns_firstTurns_succ {s t : State} {sched : Nat → Agent} {n : Nat}
    (h : s.runTurns (firstTurns sched n) = .next t) :
    s.runTurns (firstTurns sched (n + 1)) = t.runTurns [sched n] := by
  rw [firstTurns_succ, runTurns_append, h]

theorem runTurns_singleton {s t : State} {a : Agent} (h : advance a s = .next t) :
    s.runTurns [a] = .next { t with turns := [] } := by
  rw [runTurns_cons, h]
  rfl

theorem advance_of_runTurns_singleton {s t : State} {a : Agent} (h : s.runTurns [a] = .next t) :
    ∃ u, advance a s = .next u ∧ ∀ k, t.engineAt k = u.engineAt k := by
  obtain ⟨u, hu, ht⟩ := runTurns_cons_next h
  rw [runTurns_nil] at ht
  cases ht
  exact ⟨u, hu, fun _ => rfl⟩

/-- A busy engine, along a weakly fair schedule that never stops and never resets it, becomes idle. -/
theorem fair_run_idle {s : State} {k : Nat} {x : Slot} {sched : Nat → Agent} (hx : s.engines[k]? = some x)
    (hfair : WeaklyFair k sched s) (hreset : ∀ n, sched n ≠ .reset k)
    (hruns : ∀ n, ∃ t, s.runTurns (firstTurns sched n) = .next t) :
    ∃ n t y, s.runTurns (firstTurns sched n) = .next t ∧ t.engines[k]? = some y ∧ y.eng.phase = .idle := by
  choose st hst using hruns
  have hmove : ∀ n, ∃ u, advance (sched n) (st n) = .next u ∧ ∀ j, (st (n + 1)).engineAt j = u.engineAt j := fun n =>
    advance_of_runTurns_singleton ((runTurns_firstTurns_succ (hst n)).symm.trans (hst (n + 1)))
  have hexists : ∀ n, ∃ e, (st n).engineAt k = some e := by
    intro n
    induction n with
    | zero =>
      rw [← Host.Outcome.next.inj (hst 0)]
      exact ⟨x.eng, State.engineAt_of_slot hx⟩
    | succ n ih =>
      obtain ⟨e, he⟩ := ih
      obtain ⟨u, hu, hnext⟩ := hmove n
      obtain ⟨e', he', -⟩ := advance_engineAt hu he
      exact ⟨e', (hnext k).trans he'⟩
  choose e he using hexists
  have hnext : ∀ {n e'}, (st (n + 1)).engineAt k = some e' → e (n + 1) = e' := fun {n _} he' =>
    Option.some.inj ((he (n + 1)).symm.trans he')
  have hkeep : ∀ n, (e n).phase ≠ .idle → stepsLeft (e (n + 1)) ≤ stepsLeft (e n) := by
    intro n hbusy
    obtain ⟨u, hu, hstate⟩ := hmove n
    obtain ⟨e', he', ⟨-, hcmd⟩ | ⟨-, rfl⟩⟩ := advance_busy hu (he n) hbusy (hreset n)
    · rw [hnext ((hstate k).trans he'), ← stepsLeft_commandPart e', hcmd, stepsLeft_commandPart]
    · rw [hnext ((hstate k).trans he')]
      exact stepsLeft_engineStep_le _
  have hstep : ∀ n, sched n = .engine k → e (n + 1) = engineStep (e n) := by
    intro n hn
    obtain ⟨u, hu, hstate⟩ := hmove n
    rw [hn] at hu
    cases hu
    exact hnext ((hstate k).trans (by simp [State.engineAt_updAt, he n]))
  obtain ⟨n, hidle⟩ := exists_idle_of_fair e hkeep hstep fun n hbusy =>
    hfair n fun m hm => ⟨st m, e m, hst m, he m, hbusy m hm⟩
  obtain ⟨y, hy, hyeng⟩ := State.slot_of_engineAt (he n)
  exact ⟨n, st n, y, hst n, hy, by rw [hyeng, hidle]⟩

/-! A host at WAIT along a schedule. -/

/-- After `n` turns of a schedule from `s` the host still waits; the state is `t` and the instance's slot `y`. -/
structure StillWaits (s : State) (k base : Nat) (sched : Nat → Agent) (n : Nat) (t : State) (y : Slot) : Prop where
  runs : s.runTurns (firstTurns sched n) = .next t
  slot : t.engines[k]? = some y
  base_eq : y.base = base
  platform : t.PlatformOk
  waits : t.prog = s.prog

theorem StillWaits.unique {s t t' : State} {k base n : Nat} {sched : Nat → Agent} {y y' : Slot}
    (h : StillWaits s k base sched n t y) (h' : StillWaits s k base sched n t' y') : y = y' := by
  obtain rfl : t = t' := Host.Outcome.next.inj (h.runs.symm.trans h'.runs)
  exact Option.some.inj (h.slot.symm.trans h'.slot)

/-- What one turn does to the instance of a WAIT that does not end with it. -/
def WaitMove (a : Agent) (k : Nat) (y y' : Slot) : Prop :=
  (a = .host ∧ y.eng.phase ≠ .idle ∧ y' = y) ∨ (a = .engine k ∧ y'.eng = engineStep y.eng) ∨
  (a = .reset k ∧ y'.eng = Engine.reset) ∨ (a ≠ .host ∧ a ≠ .engine k ∧ a ≠ .reset k ∧ y' = y)

/-- The WAIT has ended, with the instance idle. -/
def WaitEnds (s : State) (k : Nat) (rest : List HostStmt) (sched : Nat → Agent) : Prop :=
  ∃ n t y, s.runTurns (firstTurns sched n) = .next t ∧ t.prog = rest ∧ t.engines[k]? = some y ∧ y.eng.phase = .idle

theorem StillWaits.succ {s t : State} {k base n : Nat} {rest : List HostStmt} {sched : Nat → Agent} {y : Slot}
    (h : StillWaits s k base sched n t y) (hp : s.prog = expandPseudo base .wait ++ rest)
    (hnever : ¬WaitEnds s k rest sched) :
    ∃ t' y', StillWaits s k base sched (n + 1) t' y' ∧ WaitMove (sched n) k y y' := by
  have hprog : t.prog = expandPseudo y.base .wait ++ rest := by rw [h.waits, h.base_eq, hp]
  obtain ⟨u, z, hu, hz, hbase, hpf, hcases⟩ := advance_wait h.platform h.slot hprog (sched n)
  have hrun : s.runTurns (firstTurns sched (n + 1)) = .next { u with turns := [] } :=
    (runTurns_firstTurns_succ h.runs).trans (runTurns_singleton hu)
  obtain ⟨-, hidle, hrest, rfl⟩ | ⟨hwaits, hmove⟩ := hcases
  · exact absurd ⟨n + 1, _, z, hrun, hrest, hz, hidle⟩ hnever
  · exact ⟨_, z, ⟨hrun, hz, hbase.trans h.base_eq, hpf, hwaits.trans h.waits⟩, hmove⟩

theorem WaitMove.stepsLeft_le {a : Agent} {k : Nat} {y y' : Slot} (h : WaitMove a k y y') :
    stepsLeft y'.eng ≤ stepsLeft y.eng := by
  obtain ⟨-, -, rfl⟩ | ⟨-, hstep⟩ | ⟨-, hreset⟩ | ⟨-, -, -, rfl⟩ := h
  · exact le_rfl
  · exact hstep ▸ stepsLeft_engineStep_le _
  · exact hreset ▸ Nat.zero_le _
  · exact le_rfl

theorem WaitMove.idle {a : Agent} {k : Nat} {y y' : Slot} (h : WaitMove a k y y') (hidle : y.eng.phase = .idle) :
    y'.eng.phase = .idle := by
  have hle := h.stepsLeft_le
  rw [(stepsLeft_eq_zero _).2 hidle] at hle
  exact (stepsLeft_eq_zero _).1 (Nat.le_zero.1 hle)

theorem WaitMove.engine {k : Nat} {y y' : Slot} (h : WaitMove (.engine k) k y y') : y'.eng = engineStep y.eng := by
  obtain ⟨ha, -⟩ | ⟨-, hstep⟩ | ⟨ha, -⟩ | ⟨-, ha, -⟩ := h
  · cases ha
  · exact hstep
  · cases ha
  · exact absurd rfl ha

/-- The host's move does not end a WAIT only where the instance is busy. -/
theorem WaitMove.host_busy {k : Nat} {y y' : Slot} (h : WaitMove .host k y y') : y.eng.phase ≠ .idle := by
  obtain ⟨-, hbusy, -⟩ | ⟨ha, -⟩ | ⟨ha, -⟩ | ⟨ha, -⟩ := h
  · exact hbusy
  · cases ha
  · cases ha
  · exact absurd rfl ha

/-- A WAIT that never ended would see the instance idle, which it stays, and then the host move. -/
theorem fair_wait_ends {s : State} {k : Nat} {x : Slot} {rest : List HostStmt} {sched : Nat → Agent}
    (hpf : s.PlatformOk) (hx : s.engines[k]? = some x) (hp : s.prog = expandPseudo x.base .wait ++ rest)
    (hfair : WeaklyFair k sched s) (hhost : HostKeepsMoving sched) : WaitEnds s k rest sched := by
  by_contra hnever
  have hwaits : ∀ n, ∃ t y, StillWaits s k x.base sched n t y := by
    intro n
    induction n with
    | zero => exact ⟨_, x, rfl, hx, rfl, hpf, rfl⟩
    | succ n ih =>
      obtain ⟨t, y, h⟩ := ih
      obtain ⟨t', y', h', -⟩ := h.succ hp hnever
      exact ⟨t', y', h'⟩
  choose st y hwait using hwaits
  have hmove : ∀ n, WaitMove (sched n) k (y n) (y (n + 1)) := by
    intro n
    obtain ⟨t', y', h', hmove⟩ := (hwait n).succ hp hnever
    rwa [← h'.unique (hwait (n + 1))]
  have hengine : ∀ n, sched n = .engine k → (y (n + 1)).eng = engineStep (y n).eng := fun n hn =>
    (hn ▸ hmove n : WaitMove (.engine k) k (y n) (y (n + 1))).engine
  obtain ⟨n, hidle⟩ := exists_idle_of_fair (fun n => (y n).eng) (fun n _ => (hmove n).stepsLeft_le) hengine
    fun n hbusy => hfair n fun m hm =>
      ⟨st m, (y m).eng, (hwait m).runs, State.engineAt_of_slot (hwait m).slot, hbusy m hm⟩
  have hstays : ∀ m, n ≤ m → (y m).eng.phase = .idle := fun m hm => by
    induction m, hm using Nat.le_induction with
    | base => exact hidle
    | succ m _ ih => exact (hmove m).idle ih
  obtain ⟨m, hnm, hm⟩ := hhost n
  exact (hm ▸ hmove m : WaitMove .host k (y m) (y (m + 1))).host_busy (hstays m hnm)

/-- Settles O37: the two parts by `fair_run_idle` and `fair_wait_ends`. -/
theorem fairCommandCompletes : Obligations.FairCommandCompletes := by
  unfold Obligations.FairCommandCompletes
  exact ⟨fun s k x sched hx hfair hreset hruns => fair_run_idle hx hfair hreset hruns,
    fun s k x rest sched hpf hx hp hfair hhost => fair_wait_ends hpf hx hp hfair hhost⟩

end Sys2Proof.Machine
end

section
/-!
SUPPORT. A host program on one instance under any interleaving (`45_host_transform.md` R231): what the host sees of the
machine is its own registers and the engine as it will be when its command has completed. Engine steps do not change
that view, and each statement changes it in one way only.
-/

namespace Sys2Proof.Machine

/-! An engine with its command completed. -/

/-- The engine after the steps its command still needs. -/
def Engine.finish (e : Engine) : Engine := engineSteps (stepsLeft e) e

theorem finish_of_idle {e : Engine} (h : e.phase = .idle) : e.finish = e := engineSteps_idle h _

theorem finish_engineStep (e : Engine) : (engineStep e).finish = e.finish := by
  by_cases h : e.phase = .idle
  · rw [engineStep_idle h]
  · obtain ⟨n, hn⟩ := Nat.exists_eq_succ_of_ne_zero (mt (stepsLeft_eq_zero e).1 h)
    have hleft : stepsLeft (engineStep e) = n := by rw [stepsLeft_engineStep, hn]; rfl
    rw [Engine.finish, Engine.finish, hleft, hn]
    rfl

theorem engineSteps_of_stepsLeft_le {e : Engine} {n : Nat} (h : stepsLeft e ≤ n) : engineSteps n e = e.finish := by
  induction n generalizing e with
  | zero => rw [Engine.finish, Nat.le_zero.1 h]
  | succ n ih =>
    rw [engineSteps, ih (by rw [stepsLeft_engineStep]; omega), finish_engineStep]

theorem stepsLeft_le (e : Engine) : stepsLeft e ≤ 16 := by
  obtain hp | hp | hp := phase_cases e
  · simp [stepsLeft, hp]
  · simp [stepsLeft, hp]
  · simp [stepsLeft, hp]

/-- A command on an idle engine, completed, is the collapsed command. -/
theorem finish_commandEffect {e : Engine} (h : e.phase = .idle) (i : Instr) :
    (commandEffect i e).finish = collapsedCommand i e := by
  rw [← engineSteps_of_stepsLeft_le (stepsLeft_le _), engineSteps_commandEffect h]

/-! What the host sees. -/

/-- The part of a machine that a program on one instance depends on; `eng` is the engine with its command completed. -/
structure CallView where
  prog : List HostStmt
  mem : Memory
  result : Option ProcResult
  failed : Bool
  padDraws : Nat
  eng : Engine

/-- What a machine shows of itself and of an engine. -/
def State.view (s : State) (e : Engine) : CallView :=
  { prog := s.prog, mem := s.mem, result := s.result, failed := s.failed, padDraws := s.padDraws, eng := e.finish }

/-- The machine shows `v` at instance `k`, whose slot is `x` and whose window starts at `b`; where the instance is busy,
the host waits for it. -/
structure ShowsAt (k b : Nat) (s : State) (x : Slot) (v : CallView) : Prop where
  platform : s.PlatformOk
  slot : s.engines[k]? = some x
  base : x.base = b
  ready : x.eng.phase = .idle ∨ ∃ rest, s.prog = expandPseudo b .wait ++ rest
  view : s.view x.eng = v

/-- The machine shows `v` at instance `k`. -/
def Shows (k b : Nat) (s : State) (v : CallView) : Prop := ∃ x, ShowsAt k b s x v

/-- The host's move takes every machine that shows `v` to one that shows `v'`, or leaves it alone while the instance is
busy. -/
def Moves (k b : Nat) (v v' : CallView) : Prop :=
  v.prog ≠ [] ∧ ∀ s x, ShowsAt k b s x v →
    ∃ t, advance .host s = .next t ∧ (Shows k b t v' ∨ (t = s ∧ x.eng.phase ≠ .idle))

/-- Moves of the host in a row. -/
abbrev Leads (k b : Nat) : CallView → CallView → Prop := Relation.ReflTransGen (Moves k b)

/-! Engine turns do not change the view. -/

theorem ShowsAt.engineTurn {k b : Nat} {s : State} {x : Slot} {v : CallView} (h : ShowsAt k b s x v) :
    ShowsAt k b (s.updAt k engineStep) { x with eng := engineStep x.eng } v where
  platform := State.platformOk_of_bases (s.updAt_bases ..) rfl h.platform
  slot := by simp [h.slot]
  base := h.base
  ready := h.ready.imp (fun hidle => by rwa [engineStep_idle hidle]) id
  view := by rw [← h.view]; exact congrArg (fun e => { s.view x.eng with eng := e }) (finish_engineStep x.eng)

theorem ShowsAt.otherEngineTurn {k b j : Nat} {s : State} {x : Slot} {v : CallView} (h : ShowsAt k b s x v)
    (hj : j ≠ k) : ShowsAt k b (s.updAt j engineStep) x v where
  platform := State.platformOk_of_bases (s.updAt_bases ..) rfl h.platform
  slot := (State.updAt_getElem?_ne s _ hj).trans h.slot
  base := h.base
  ready := h.ready
  view := h.view

theorem Shows.engineTurn {k b : Nat} {s : State} {v : CallView} (h : Shows k b s v) (j : Nat) :
    Shows k b (s.updAt j engineStep) v := by
  obtain ⟨x, hx⟩ := h
  by_cases hj : j = k
  · subst hj
    exact ⟨_, hx.engineTurn⟩
  · exact ⟨x, hx.otherEngineTurn hj⟩

theorem Shows.prog_eq {k b : Nat} {s : State} {v : CallView} (h : Shows k b s v) : s.prog = v.prog := by
  obtain ⟨x, hx⟩ := h
  rw [← hx.view]
  rfl

/-- The turns a machine holds of its own are not seen. -/
theorem Shows.turns {k b : Nat} {s : State} {v : CallView} (h : Shows k b s v) (ts : List Agent) :
    Shows k b { s with turns := ts } v := by
  obtain ⟨x, hx⟩ := h
  exact ⟨x, hx.platform, hx.slot, hx.base, hx.ready, hx.view⟩

/-- Once the instance is idle, the host's move gets on. -/
theorem Moves.of_idle {k b : Nat} {s : State} {x : Slot} {v v' : CallView} (h : Moves k b v v')
    (hs : ShowsAt k b s x v) (hidle : x.eng.phase = .idle) : ∃ t, advance .host s = .next t ∧ Shows k b t v' := by
  obtain ⟨t, ht, hshow | ⟨-, hbusy⟩⟩ := h.2 s x hs
  · exact ⟨t, ht, hshow⟩
  · exact absurd hidle hbusy

/-! Runs. -/

/-- Any run without resets that ends the program shows the last view. -/
theorem Leads.run {k b : Nat} {w : CallView} (hend : w.prog = []) {ts : List Agent} {s t : State} {v : CallView}
    (hleads : Leads k b v w) (hs : Shows k b s v) (hreset : ∀ j, Agent.reset j ∉ ts) (hrun : s.runTurns ts = .next t)
    (ht : t.prog = []) : Shows k b t w := by
  induction ts generalizing s v with
  | nil =>
    rw [runTurns_nil] at hrun
    cases hrun
    obtain rfl | ⟨v', hmove, -⟩ := hleads.cases_head
    · exact hs.turns []
    · exact absurd (hs.prog_eq.symm.trans ht) hmove.1
  | cons a ts ih =>
    obtain ⟨u, hu, hrest⟩ := runTurns_cons_next hrun
    have hreset' : ∀ j, Agent.reset j ∉ ts := fun j hj => hreset j (List.mem_cons_of_mem _ hj)
    cases a with
    | host =>
      obtain rfl | ⟨v', hmove, hleads'⟩ := hleads.cases_head
      · have hstay : advance .host s = .next s := by
          rw [advance, hostTurn, hs.prog_eq, hend]
        obtain rfl := Host.Outcome.next.inj (hstay.symm.trans hu)
        exact ih .refl hs hreset' hrest
      · obtain ⟨x, hx⟩ := hs
        obtain ⟨u', hu', hshow⟩ := hmove.2 s x hx
        obtain rfl := Host.Outcome.next.inj (hu'.symm.trans hu)
        obtain hshow | ⟨rfl, -⟩ := hshow
        · exact ih hleads' hshow hreset' hrest
        · exact ih hleads ⟨x, hx⟩ hreset' hrest
    | engine j =>
      cases hu
      exact ih hleads (hs.engineTurn j) hreset' hrest
    | reset j => exact absurd List.mem_cons_self (hreset j)

/-- Engine turns alone make the instance idle. -/
theorem ShowsAt.exists_idle {k b : Nat} {s : State} {x : Slot} {v : CallView} (h : ShowsAt k b s x v) :
    ∃ ts t y, (∀ a ∈ ts, a = .engine k) ∧ s.runTurns ts = .next t ∧ ShowsAt k b t y v ∧ y.eng.phase = .idle := by
  generalize hn : stepsLeft x.eng = n
  induction n generalizing s x with
  | zero =>
    exact ⟨[], _, x, nofun, rfl, ⟨h.platform, h.slot, h.base, h.ready, h.view⟩, (stepsLeft_eq_zero _).1 hn⟩
  | succ n ih =>
    have hleft : stepsLeft (engineStep x.eng) = n := by rw [stepsLeft_engineStep, hn]; rfl
    obtain ⟨ts, t, y, hts, hrun, hy, hidle⟩ := ih h.engineTurn hleft
    refine ⟨.engine k :: ts, t, y, fun a ha => ?_, hrun, hy, hidle⟩
    exact (List.mem_cons.1 ha).elim id (hts a)

/-- Some run of the host and that engine gets to the last view. -/
theorem Leads.exists_run {k b : Nat} {v w : CallView} (h : Leads k b v w) {s : State} (hs : Shows k b s v) :
    ∃ ts t, (∀ a ∈ ts, a = .host ∨ a = .engine k) ∧ s.runTurns ts = .next t ∧ Shows k b t w := by
  induction h using Relation.ReflTransGen.head_induction_on generalizing s with
  | refl => exact ⟨[], _, nofun, rfl, hs.turns []⟩
  | head hmove _ ih =>
    obtain ⟨x, hx⟩ := hs
    obtain ⟨ts, t, y, hts, hrun, hy, hidle⟩ := hx.exists_idle
    obtain ⟨u, hu, hshow⟩ := hmove.of_idle hy hidle
    obtain ⟨ts', t', hts', hrun', ht'⟩ := ih hshow
    refine ⟨ts ++ .host :: ts', t', fun a ha => ?_, ?_, ht'⟩
    · obtain ha | ha := List.mem_append.1 ha
      · exact .inr (hts a ha)
      · exact (List.mem_cons.1 ha).elim .inl (hts' a)
    · rw [runTurns_append, hrun]
      exact (runTurns_cons t .host ts').trans (by rw [hu]; exact hrun')

end Sys2Proof.Machine
end

section
/-!
SUPPORT. The statements of TransformOnEngine one by one (`30_encoding.md` R88 to R90, `45_host_transform.md` R231): how
each changes what the host sees.
-/

namespace Sys2Proof.Machine

/-! A statement on an idle instance. -/

/-- Instance `k`, whose slot is `x` and whose window starts at `b`, is idle. -/
structure IdleAt (k b : Nat) (s : State) (x : Slot) : Prop where
  platform : s.PlatformOk
  slot : s.engines[k]? = some x
  base : x.base = b
  idle : x.eng.phase = .idle

theorem IdleAt.shows {k b : Nat} {s : State} {x : Slot} (h : IdleAt k b s x) : Shows k b s (s.view x.eng) :=
  ⟨x, h.platform, h.slot, h.base, .inl h.idle, rfl⟩

theorem ShowsAt.idleAt {k b : Nat} {s : State} {x : Slot} {v : CallView} (h : ShowsAt k b s x v)
    (hidle : x.eng.phase = .idle) : IdleAt k b s x := ⟨h.platform, h.slot, h.base, hidle⟩

/-- What changes no engine and selects no other instance leaves an idle instance idle. -/
theorem IdleAt.congr {k b : Nat} {s t : State} {x : Slot} (h : IdleAt k b s x) (he : t.engines = s.engines)
    (hs : t.sel = s.sel) : IdleAt k b t x where
  platform := State.platformOk_of_bases (by rw [he]) hs h.platform
  slot := by rw [he, h.slot]
  base := h.base
  idle := h.idle

/-- A machine at a statement other than a POLL has its instance idle. -/
theorem ShowsAt.idle_of_prog {k b : Nat} {s : State} {x : Slot} {v : CallView} {st : HostStmt} {rest : List HostStmt}
    (h : ShowsAt k b s x v) (hp : v.prog = st :: rest) (hst : ∀ a m w, st ≠ .poll a m w) : x.eng.phase = .idle := by
  obtain hidle | ⟨rest', hwait⟩ := h.ready
  · exact hidle
  · have hprog : s.prog = st :: rest := (Shows.prog_eq ⟨x, h⟩).trans hp
    rw [hprog, expandPseudo_wait] at hwait
    exact absurd (List.cons.inj hwait).1 (hst _ _ _)

/-- The move of the host at a statement other than a POLL: the instance is idle, and the view the statement leads to is
what the machine shows next. -/
theorem moves_of_hostStmt {k b : Nat} {v v' : CallView} {st : HostStmt} {rest : List HostStmt}
    (hp : v.prog = st :: rest) (hst : ∀ a m w, st ≠ .poll a m w)
    (h : ∀ s x, IdleAt k b s x → s.view x.eng = { v with prog := rest } →
      ∃ t, hostStmt st s = .next t ∧ Shows k b t v') : Moves k b v v' := by
  refine ⟨by rw [hp]; exact List.cons_ne_nil _ _, fun s x hx => ?_⟩
  have hidle := hx.idle_of_prog hp hst
  have hprog : s.prog = st :: rest := (Shows.prog_eq ⟨x, hx⟩).trans hp
  have hview : ({ s with prog := rest } : State).view x.eng = { v with prog := rest } := by
    rw [← hx.view]
    rfl
  obtain ⟨t, ht, hshow⟩ := h { s with prog := rest } x ((hx.idleAt hidle).congr rfl rfl) hview
  exact ⟨t, by simp only [advance, hostTurn, hprog, ht], .inl hshow⟩

/-- The same for a statement that changes no engine. -/
theorem moves_of_hostStmt_keeps {k b : Nat} {v v' : CallView} {st : HostStmt} {rest : List HostStmt}
    (hp : v.prog = st :: rest) (hst : ∀ a m w, st ≠ .poll a m w)
    (h : ∀ s x, IdleAt k b s x → s.view x.eng = { v with prog := rest } →
      ∃ t, hostStmt st s = .next t ∧ t.engines = s.engines ∧ t.sel = s.sel ∧ t.view x.eng = v') : Moves k b v v' :=
  moves_of_hostStmt hp hst fun s x hx hview => by
    obtain ⟨t, ht, he, hs, rfl⟩ := h s x hx hview
    exact ⟨t, ht, (hx.congr he hs).shows⟩

/-! Reads. -/

theorem IdleAt.busRead {k b off : Nat} {s : State} {x : Slot} (h : IdleAt k b s x) (hoff : off < 64)
    (h4 : off % 4 = 0) : busRead (b + off) 32 s = .ok (readReg off x.eng) := by
  rw [← h.base]
  exact busRead_of_slot h.platform h.slot hoff h4

/-- The engine seen is the engine itself where it is idle. -/
theorem IdleAt.eng_eq {k b : Nat} {s : State} {x : Slot} {v : CallView} (h : IdleAt k b s x)
    (hview : s.view x.eng = v) : x.eng = v.eng := by
  rw [← hview]
  exact (finish_of_idle h.idle).symm

/-! Writes. -/

theorem hostStmt_write {k b off : Nat} {s : State} {x : Slot} (h : IdleAt k b s x) (hoff : off < 64)
    (h4 : off % 4 = 0) (w : Word) :
    hostStmt (.bus (.write (b + off) 32 w)) s = .next (({ s with sel := k } : State).updAt k (writeEffect off w)) := by
  have hresolve : s.resolve (b + off) 32 = .ok (k, off) := by
    rw [← h.base, State.resolve_of_slot h.platform h.slot hoff, if_neg (by omega)]
  exact busWrite_ok w hresolve

theorem IdleAt.write_platform {k b : Nat} {s : State} {x : Slot} (h : IdleAt k b s x) (f : Engine → Engine) :
    (({ s with sel := k } : State).updAt k f).PlatformOk := by
  obtain ⟨-, haligned, hdisjoint⟩ := h.platform
  have hk : k < s.engines.length := (List.getElem?_eq_some_iff.1 h.slot).1
  exact State.platformOk_of_bases (s := { s with sel := k }) (State.updAt_bases ..) rfl ⟨hk, haligned, hdisjoint⟩

/-- After a write the instance's engine has changed by the write's effect; it is idle or the host waits for it. -/
theorem IdleAt.write_shows {k b : Nat} {s : State} {x : Slot} (h : IdleAt k b s x) (f : Engine → Engine)
    (hready : (f x.eng).phase = .idle ∨ ∃ rest, s.prog = expandPseudo b .wait ++ rest) :
    Shows k b (({ s with sel := k } : State).updAt k f) { s.view x.eng with eng := (f x.eng).finish } :=
  ⟨{ x with eng := f x.eng }, h.write_platform f, by simp [h.slot], h.base, hready, rfl⟩

theorem writeReg_phase (off : Nat) (w : Word) (e : Engine) : (writeReg off w e).phase = e.phase := by
  obtain ⟨key, din, hwrite⟩ := writeReg_changes off w e
  rw [hwrite]

/-- `WR` of a register other than CTRL. -/
theorem moves_writeReg {k b off : Nat} {v : CallView} {w : Word} {rest : List HostStmt}
    (hp : v.prog = .bus (.write (b + off) 32 w) :: rest) (hoff : off < 64) (h4 : off % 4 = 0) (hne : off ≠ 0x00) :
    Moves k b v { v with prog := rest, eng := writeReg off w v.eng } :=
  moves_of_hostStmt hp nofun fun s x hx hview => by
    have hidle : (writeReg off w x.eng).phase = .idle := (writeReg_phase ..).trans hx.idle
    have hshow := hx.write_shows (writeReg off w) (.inl hidle)
    rw [hview, finish_of_idle hidle, hx.eng_eq hview] at hshow
    exact ⟨_, hostStmt_write hx hoff h4 w, by rwa [writeEffect_of_ne_ctrl w hne]⟩

/-- A command whose WAIT follows: the engine is seen as the collapsed command leaves it. -/
theorem moves_command {k b : Nat} {v : CallView} {i : Instr} {rest : List HostStmt}
    (hp : v.prog = expandPseudo b (.command i) ++ (expandPseudo b .wait ++ rest)) :
    Moves k b v { v with prog := expandPseudo b .wait ++ rest, eng := collapsedCommand i v.eng } :=
  moves_of_hostStmt (st := wr b .ctrl (encode i)) hp nofun fun s x hx hview => by
    have hprog : s.prog = expandPseudo b .wait ++ rest := congrArg CallView.prog hview
    have hshow := hx.write_shows (commandEffect i) (.inr ⟨rest, hprog⟩)
    rw [hview, finish_commandEffect hx.idle, hx.eng_eq hview] at hshow
    refine ⟨_, hostStmt_write (off := 0x00) hx (by decide) rfl (encode i), ?_⟩
    rwa [writeEffect_ctrl, dispatchEffect_encode]

/-- WAIT goes on once the instance is idle. -/
theorem moves_wait {k b : Nat} {v : CallView} {rest : List HostStmt} (hp : v.prog = expandPseudo b .wait ++ rest) :
    Moves k b v { v with prog := rest } := by
  refine ⟨by rw [hp]; exact List.cons_ne_nil _ _, fun s x hx => ?_⟩
  have hprog : s.prog = expandPseudo x.base .wait ++ rest := by
    rw [hx.base, ← hp]
    exact Shows.prog_eq ⟨x, hx⟩
  refine ⟨_, advance_host_wait hx.platform hx.slot hprog, ?_⟩
  by_cases hidle : x.eng.phase = .idle
  · rw [if_pos hidle]
    refine .inl ⟨x, hx.platform, hx.slot, hx.base, .inl hidle, ?_⟩
    rw [← hx.view]
    rfl
  · rw [if_neg hidle]
    exact .inr ⟨rfl, hidle⟩

/-! The statements that change no engine. -/

theorem moves_feedBlock {k b : Nat} {v : CallView} {c : Call} {p i : Nat} {rest : List HostStmt}
    (hp : v.prog = .feedBlock b c p i :: rest) :
    Moves k b v { v with prog := expandPseudo b (.lddin (inBlock c (Config.padDraw p) v.mem i)) ++ rest } :=
  moves_of_hostStmt_keeps hp nofun fun _ _ _ hview =>
    ⟨_, rfl, rfl, rfl, congrArg (fun u : CallView =>
      { u with prog := expandPseudo b (.lddin (inBlock c (Config.padDraw p) u.mem i)) ++ u.prog }) hview⟩

theorem moves_readOutHi {k b a : Nat} {v : CallView} {rest : List HostStmt} (hp : v.prog = .readOutHi b a :: rest) :
    Moves k b v { v with prog := .readOutLo b a (hiHalf v.eng.dout) :: rest } :=
  moves_of_hostStmt_keeps hp nofun fun s x hx hview => by
    have hread : busRead (b + 0x18) 32 s = .ok (hiHalf v.eng.dout) := by
      rw [← hx.eng_eq hview]
      exact hx.busRead (by decide) rfl
    exact ⟨_, withRead_of_busRead hread _, rfl, rfl,
      congrArg (fun u : CallView => { u with prog := .readOutLo b a (hiHalf v.eng.dout) :: u.prog }) hview⟩

theorem moves_readOutLo {k b a : Nat} {v : CallView} {hi : Word} {rest : List HostStmt}
    (hp : v.prog = .readOutLo b a hi :: rest) :
    Moves k b v { v with prog := .storeBlock a (joinHalves hi (loHalf v.eng.dout)) :: rest } :=
  moves_of_hostStmt_keeps hp nofun fun s x hx hview => by
    have hread : busRead (b + 0x1C) 32 s = .ok (loHalf v.eng.dout) := by
      rw [← hx.eng_eq hview]
      exact hx.busRead (by decide) rfl
    exact ⟨_, withRead_of_busRead hread _, rfl, rfl,
      congrArg (fun u : CallView => { u with prog := .storeBlock a (joinHalves hi (loHalf v.eng.dout)) :: u.prog }) hview⟩

theorem moves_storeBlock {k b a : Nat} {v : CallView} {w : Block} {rest : List HostStmt}
    (hp : v.prog = .storeBlock a w :: rest) :
    Moves k b v { v with prog := rest, mem := storeBlock v.mem a w } :=
  moves_of_hostStmt_keeps hp nofun fun _ _ _ hview =>
    ⟨_, rfl, rfl, rfl, congrArg (fun u : CallView => { u with mem := storeBlock u.mem a w }) hview⟩

theorem moves_ret {k b n : Nat} {v : CallView} {rest : List HostStmt} (hp : v.prog = .ret n :: rest) :
    Moves k b v { v with prog := rest, result := some (.returned n) } :=
  moves_of_hostStmt_keeps hp nofun fun _ _ _ hview =>
    ⟨_, rfl, rfl, rfl, congrArg (fun u : CallView => { u with result := some (.returned n) }) hview⟩

/-- The error bits of STATUS are clear where the flags are (`10_state.md` R34). -/
theorem statusWord_check {e : Engine} (hcmd : e.errCmd = false) (hbusy : e.errBusy = false)
    (hnokey : e.errNokey = false) : statusWord e &&& checkMask = 0#32 := by
  have hmask : checkMask =
      (1#1 ++ 1#1 ++ 1#1 ++ 0#4 ++ 0#4 ++ 0#2 ++ 0#2 ++ 0#1 ++ 0#1 ++ 0#1 ++ 0#1).setWidth 32 := by
    decide
  simp only [hmask, statusWord, hcmd, hbusy, hnokey, ← BitVec.setWidth_and, BitVec.and_append, BitVec.and_zero]
  rfl

theorem moves_check {k b : Nat} {v : CallView} {rest : List HostStmt} (hp : v.prog = expandPseudo b .check ++ rest)
    (hcmd : v.eng.errCmd = false) (hbusy : v.eng.errBusy = false) (hnokey : v.eng.errNokey = false) :
    Moves k b v { v with prog := rest } :=
  moves_of_hostStmt_keeps (st := .check b) hp nofun fun s x hx hview => by
    have hread : busRead (regAddr b .status) 32 s = .ok (statusWord v.eng) := by
      rw [← hx.eng_eq hview]
      exact hx.busRead (off := 0x04) (by decide) rfl
    refine ⟨_, withRead_of_busRead hread _, ?_⟩
    rw [if_pos (statusWord_check hcmd hbusy hnokey)]
    exact ⟨rfl, rfl, hview⟩

/-- A call whose capacity is too small reports it (`45_host_transform.md` R222). -/
theorem moves_transform_capacity {k b : Nat} {v : CallView} {c : Call} {rest : List HostStmt}
    (hp : v.prog = .transform c :: rest) (hcap : c.cap < paddedLength c.length) :
    Moves k b v { v with prog := rest, result := some (.capacityError (paddedLength c.length) c.cap) } :=
  moves_of_hostStmt_keeps hp nofun fun s _ _ hview =>
    ⟨_, hostStmt_transform_of_cap_lt hcap s, rfl, rfl,
      congrArg (fun u : CallView => { u with result := some (.capacityError (paddedLength c.length) c.cap) }) hview⟩

/-- A call with proper buffers puts its program in front. -/
theorem moves_transform {k b : Nat} {v : CallView} {c : Call} {rest : List HostStmt}
    (hp : v.prog = .transform c :: rest) (hcap : paddedLength c.length ≤ c.cap) (hproper : ¬overlapsPartly c = true) :
    Moves k b v { v with prog := callProgram c v.padDraws ++ rest, padDraws := v.padDraws + 1 } :=
  moves_of_hostStmt_keeps hp nofun fun s _ _ hview => by
    refine ⟨_, (hostStmt_transform hcap s).trans (if_neg hproper), rfl, rfl, ?_⟩
    exact congrArg (fun u : CallView => { u with prog := callProgram c u.padDraws ++ u.prog, padDraws := u.padDraws + 1 })
      hview

end Sys2Proof.Machine
end

section
/-!
SUPPORT. TransformOnEngine from its first statement to its last (`45_host_transform.md` R231), each part as moves of the
host in a row.
-/

namespace Sys2Proof.Machine

/-! The engine between the parts of the program. -/

/-- An idle engine with no error flag set. -/
structure Settled (e : Engine) : Prop where
  idle : e.phase = .idle
  errCmd : e.errCmd = false
  errBusy : e.errBusy = false
  errNokey : e.errNokey = false

/-- A settled engine that holds the round keys `rk`. -/
structure Keyed (rk : Vector RoundKey 16) (e : Engine) : Prop where
  settled : Settled e
  valid : e.keyValid = true
  store : e.rk = rk

theorem Settled.setKey {e : Engine} (h : Settled e) (key : Block) : Settled { e with key := key } :=
  ⟨h.idle, h.errCmd, h.errBusy, h.errNokey⟩

theorem Keyed.setDin {e : Engine} {rk : Vector RoundKey 16} (h : Keyed rk e) (din : Block) :
    Keyed rk { e with din := din } :=
  ⟨⟨h.settled.idle, h.settled.errCmd, h.settled.errBusy, h.settled.errNokey⟩, h.valid, h.store⟩

theorem collapsedCommand_ksched {e : Engine} (h : Settled e) : collapsedCommand .ksched e = kschedWhole e :=
  commandGate_accept false _ h.idle nofun

theorem collapsedCommand_block {e : Engine} {rk : Vector RoundKey 16} (h : Keyed rk e) (dir : Dir) :
    collapsedCommand (blockCommand dir) e = blockWhole dir e := by
  cases dir with
  | enc => exact commandGate_accept true _ h.settled.idle fun _ => h.valid
  | dec => exact commandGate_accept true _ h.settled.idle fun _ => h.valid

theorem keyed_kschedWhole {e : Engine} {key : Block} (h : Settled e) (hkey : e.key = key) :
    Keyed (keySchedule key) (kschedWhole e) := by
  subst hkey
  exact ⟨⟨rfl, h.errCmd, h.errBusy, h.errNokey⟩, rfl, rfl⟩

theorem keyed_blockWhole {e : Engine} {rk : Vector RoundKey 16} (h : Keyed rk e) (dir : Dir) :
    Keyed rk (blockWhole dir e) :=
  ⟨⟨rfl, h.settled.errCmd, h.settled.errBusy, h.settled.errNokey⟩, h.valid, h.store⟩

theorem blockWhole_dout {e : Engine} {rk : Vector RoundKey 16} (h : Keyed rk e) (dir : Dir) :
    (blockWhole dir e).dout = network rk dir e.din := by
  rw [← h.store]
  rfl

/-! The parts of the program. -/

theorem leads_ldkey {k b : Nat} {v : CallView} {key : Block} {rest : List HostStmt}
    (hp : v.prog = expandPseudo b (.ldkey key) ++ rest) :
    Leads k b v { v with prog := rest, eng := { v.eng with key := key } } := by
  rw [← writeReg_key]
  exact .tail (.single (moves_writeReg (off := 0x08) hp (by decide) rfl (by decide)))
    (moves_writeReg (off := 0x0C) rfl (by decide) rfl (by decide))

theorem leads_lddin {k b : Nat} {v : CallView} {din : Block} {rest : List HostStmt}
    (hp : v.prog = expandPseudo b (.lddin din) ++ rest) :
    Leads k b v { v with prog := rest, eng := { v.eng with din := din } } := by
  rw [← writeReg_din]
  exact .tail (.single (moves_writeReg (off := 0x10) hp (by decide) rfl (by decide)))
    (moves_writeReg (off := 0x14) rfl (by decide) rfl (by decide))

theorem leads_command {k b : Nat} {v : CallView} {i : Instr} {rest : List HostStmt}
    (hp : v.prog = expandPseudo b (.command i) ++ (expandPseudo b .wait ++ rest)) :
    Leads k b v { v with prog := rest, eng := collapsedCommand i v.eng } :=
  .tail (.single (moves_command hp)) (moves_wait rfl)

/-- `RDOUT` and the store of a block. -/
theorem leads_readOut {k b a : Nat} {v : CallView} {rest : List HostStmt} (hp : v.prog = .readOutHi b a :: rest) :
    Leads k b v { v with prog := rest, mem := storeBlock v.mem a v.eng.dout } := by
  have hjoin : joinHalves (hiHalf v.eng.dout) (loHalf v.eng.dout) = v.eng.dout := hiHalf_append_loHalf _
  have hread : Leads k b v { v with prog := .storeBlock a v.eng.dout :: rest } := by
    rw [← hjoin]
    exact .tail (.single (moves_readOutHi hp)) (moves_readOutLo rfl)
  exact hread.tail (moves_storeBlock rfl)

/-- The key is loaded and scheduled. -/
theorem leads_key {k b : Nat} {v : CallView} {key : Block} {rest : List HostStmt}
    (hp : v.prog = expandPseudo b (.ldkey key) ++ (expandPseudo b (.command .ksched) ++ (expandPseudo b .wait ++ rest)))
    (he : Settled v.eng) :
    ∃ e, Keyed (keySchedule key) e ∧ Leads k b v { v with prog := rest, eng := e } := by
  have hloaded := he.setKey key
  have hload : Leads k b v _ := leads_ldkey hp
  have hrun : Leads k b v _ := hload.trans (leads_command (i := .ksched) rfl)
  rw [collapsedCommand_ksched hloaded] at hrun
  exact ⟨_, keyed_kschedWhole hloaded rfl, hrun⟩

/-- One block: fed, run and stored. -/
theorem leads_block {k : Nat} {v : CallView} {c : Call} {p j : Nat} {rk : Vector RoundKey 16} {rest : List HostStmt}
    (hp : v.prog = blockProgram c p j ++ rest) (he : Keyed rk v.eng) :
    ∃ e, Keyed rk e ∧ Leads k (unitFor c j) v { v with
      prog := rest, eng := e,
      mem := storeBlock v.mem (c.out + 8 * j) (network rk c.dir (inBlock c (Config.padDraw p) v.mem (8 * j))) } := by
  have hfed := he.setDin (inBlock c (Config.padDraw p) v.mem (8 * j))
  refine ⟨_, keyed_blockWhole hfed c.dir, ?_⟩
  have hfeed : Leads k (unitFor c j) v _ := .single (moves_feedBlock (by rw [hp, blockProgram]; rfl))
  have hload : Leads k (unitFor c j) v _ := hfeed.trans (leads_lddin rfl)
  have hrun : Leads k (unitFor c j) v _ := hload.trans (leads_command (i := blockCommand c.dir) rfl)
  rw [collapsedCommand_block hfed c.dir] at hrun
  have hout : Leads k (unitFor c j) v _ := hrun.trans (leads_readOut rfl)
  rwa [blockWhole_dout hfed c.dir] at hout

/-- With one instance every block is that instance's. -/
theorem unitFor_of_single {c : Call} (h : c.more = []) (j : Nat) : unitFor c j = c.unit := by
  simp [unitFor, Call.units, h, Nat.mod_one]

/-- The first `n` blocks. -/
theorem leads_blocks {k : Nat} {v : CallView} {c : Call} (hsingle : c.more = []) {p n : Nat} {rk : Vector RoundKey 16}
    {rest : List HostStmt} (hp : v.prog = (List.range n).flatMap (blockProgram c p) ++ rest) (he : Keyed rk v.eng) :
    ∃ e, Keyed rk e ∧ Leads k c.unit v
      { v with prog := rest, eng := e, mem := transformBlocks c rk (Config.padDraw p) v.mem n } := by
  induction n generalizing rest with
  | zero =>
    refine ⟨v.eng, he, ?_⟩
    obtain rfl : v.prog = rest := hp
    exact .refl
  | succ n ih =>
    have hp' : v.prog = (List.range n).flatMap (blockProgram c p) ++ (blockProgram c p n ++ rest) := by
      simpa [List.range_succ] using hp
    obtain ⟨e, hkeyed, hbefore⟩ := ih hp'
    obtain ⟨e', hkeyed', hblock⟩ := leads_block (k := k) (v := { v with
      prog := blockProgram c p n ++ rest, eng := e, mem := transformBlocks c rk (Config.padDraw p) v.mem n }) rfl hkeyed
    rw [unitFor_of_single hsingle] at hblock
    exact ⟨e', hkeyed', hbefore.trans hblock⟩

theorem callProgram_of_single {c : Call} (h : c.more = []) (p : Nat) :
    callProgram c p = expandPseudo c.unit (.ldkey (pack64 c.key)) ++ (expandPseudo c.unit (.command .ksched) ++
      (expandPseudo c.unit .wait ++ ((List.range (paddedOf c / 8)).flatMap (blockProgram c p) ++
        (expandPseudo c.unit .check ++ [.ret (paddedOf c)])))) := by
  simp [callProgram, Call.units, h]

/-- The whole program of a call with proper buffers. -/
theorem leads_callProgram {k : Nat} {v : CallView} {c : Call} (hsingle : c.more = []) {p : Nat}
    (hp : v.prog = callProgram c p ++ []) (he : Settled v.eng) :
    ∃ e, Leads k c.unit v { v with
      prog := [], eng := e, result := some (.returned (paddedOf c)),
      mem := transformBlocks c (keySchedule (pack64 c.key)) (Config.padDraw p) v.mem (paddedOf c / 8) } := by
  rw [List.append_nil, callProgram_of_single hsingle] at hp
  obtain ⟨e, hkeyed, hkey⟩ := leads_key (k := k) hp he
  obtain ⟨e', ⟨hsettled, -, -⟩, hblocks⟩ := leads_blocks (k := k) (v := { v with
    prog := (List.range (paddedOf c / 8)).flatMap (blockProgram c p) ++
      (expandPseudo c.unit .check ++ [.ret (paddedOf c)]),
    eng := e }) hsingle rfl hkeyed
  exact ⟨e', .tail (.tail (hkey.trans hblocks) (moves_check rfl hsettled.errCmd hsettled.errBusy hsettled.errNokey))
    (moves_ret rfl)⟩

/-- The whole call, when the procedure does not refuse it: the host ends with the procedure's memory and result. -/
theorem leads_call {k : Nat} {v : CallView} {c : Call} (hsingle : c.more = []) (hp : v.prog = [.transform c])
    (he : Settled v.eng) {r : ProcResult} {m : Memory}
    (h : transform c (Config.padDraw v.padDraws) v.mem = .next (r, m)) :
    ∃ w, Leads k c.unit v w ∧ w.prog = [] ∧ w.mem = m ∧ w.result = some r ∧ w.failed = v.failed := by
  obtain ⟨hcap, rfl, rfl⟩ | ⟨hcap, hproper, rfl, rfl⟩ := transform_next h
  · exact ⟨_, .single (moves_transform_capacity hp hcap), rfl, rfl, rfl, rfl⟩
  · have hstart : Leads k c.unit v _ := .single (moves_transform hp hcap hproper)
    obtain ⟨e, hrest⟩ := leads_callProgram (k := k) (v := { v with
      prog := callProgram c v.padDraws ++ [], padDraws := v.padDraws + 1 }) hsingle rfl he
    exact ⟨_, hstart.trans hrest, rfl, rfl, rfl, rfl⟩

/-- A state that meets the premises of a call shows a view from which the call leads to its end. -/
theorem shows_call {s : State} {k : Nat} {x : Slot} {c : Call} {m : Memory} {r : ProcResult} (hpf : s.PlatformOk)
    (hx : s.engines[k]? = some x) (hunit : c.unit = x.base) (hsingle : c.more = []) (hp : s.prog = [.transform c])
    (he : Settled x.eng) (h : transform c (Config.padDraw s.padDraws) s.mem = .next (r, m)) :
    ∃ w, Shows k c.unit s (s.view x.eng) ∧ Leads k c.unit (s.view x.eng) w ∧ w.prog = [] ∧ w.mem = m ∧
      w.result = some r ∧ w.failed = s.failed := by
  have hidle : IdleAt k c.unit s x := ⟨hpf, hx, hunit.symm, he.idle⟩
  have hsettled : Settled (s.view x.eng).eng := by
    rw [← hidle.eng_eq rfl]
    exact he
  obtain ⟨w, hleads, hend⟩ := leads_call (k := k) (v := s.view x.eng) hsingle hp hsettled h
  exact ⟨w, hidle.shows, hleads, hend⟩

/-- Settles O59: every run without resets that ends the program ends in the view the call leads to. -/
theorem transformOnEngineAgrees : Obligations.TransformOnEngineAgrees := by
  unfold Obligations.TransformOnEngineAgrees
  intro s t k x c m r ts hpf hx hunit hsingle hp hfailed hidle hcmd hbusy hnokey hreset htransform hrun hend
  obtain ⟨w, hshow, hleads, hw, hmem, hresult, hkept⟩ :=
    shows_call hpf hx hunit hsingle hp ⟨hidle, hcmd, hbusy, hnokey⟩ htransform
  obtain ⟨y, hy⟩ := hleads.run hw hshow hreset hrun hend
  have hview := hy.view
  exact ⟨(congrArg CallView.mem hview).trans hmem, (congrArg CallView.result hview).trans hresult,
    (congrArg CallView.failed hview).trans (hkept.trans hfailed)⟩

/-- Settles O60: some run of the host and the engine gets to the view the call leads to. -/
theorem transformOnEngineFinishes : Obligations.TransformOnEngineFinishes := by
  unfold Obligations.TransformOnEngineFinishes
  intro s k x c m r hpf hx hunit hsingle hp hidle hcmd hbusy hnokey htransform
  obtain ⟨w, hshow, hleads, hw, -, hresult, -⟩ :=
    shows_call hpf hx hunit hsingle hp ⟨hidle, hcmd, hbusy, hnokey⟩ htransform
  obtain ⟨ts, t, hts, hrun, hshow'⟩ := hleads.exists_run hshow
  obtain ⟨y, hy⟩ := hshow'
  have hview := hy.view
  exact ⟨ts, t, hts, hrun, (congrArg CallView.prog hview).trans hw, (congrArg CallView.result hview).trans hresult⟩

end Sys2Proof.Machine
end
